-- ==== Sys2Proof/Word.lean ====
section
/-! DEFINITION. The words of the machine: one word is 16 bits, unsigned (spec/00_scope.md R5, R8); a byte is what the
console moves (spec/43_trap.md R180); a register index is a 3-bit field, every value of which names a register
(spec/30_encoding.md R88). -/

namespace Sys2Proof

/-- A machine word: register contents, memory words, addresses, the program counter (R8). -/
abbrev Word := BitVec 16

/-- A byte of the console port (R180). -/
abbrev Byte := BitVec 8

/-- A register index: an unsigned 3-bit number selecting R0 to R7 (R20, R88). An index outside 0..7 cannot be written. -/
abbrev Reg := BitVec 3

end Sys2Proof
end

