-- ==== Sys2Proof/Syntax.lean ====
section
/-! DEFINITION. The instructions: one constructor for each row of spec/opcode_table.json. The spec's 17 variants
(spec/30_encoding.md R70) are the first 16 constructors and Trap, whose six codes (R86) are a constructor each, as they are a row
each in the table. An immediate or offset operand is the 16-bit word the decoder makes of its field by sign extension (R87). -/

namespace Sys2Proof

/-- An instruction of the lilc3 ISA, named after its row of the opcode table. -/
inductive Instr where
  /-- ADD DR, SR1, SR2 (spec/40_operate.md R111). -/
  | addReg (dr sr1 sr2 : Reg)
  /-- ADD DR, SR1, #imm5 (R112). -/
  | addImm (dr sr1 : Reg) (imm : Word)
  /-- AND DR, SR1, SR2 (R113). -/
  | andReg (dr sr1 sr2 : Reg)
  /-- AND DR, SR1, #imm5 (R114). -/
  | andImm (dr sr1 : Reg) (imm : Word)
  /-- NOT DR, SR (R115). -/
  | not (dr sr : Reg)
  /-- BR[n][z][p] offset9; nzp is the mask, n first (spec/41_control.md R132). -/
  | br (nzp : BitVec 3) (off : Word)
  /-- JMP BaseR; RET is JMP R7 (R134). -/
  | jmp (baseR : Reg)
  /-- JSR offset11 (R136). -/
  | jsr (off : Word)
  /-- JSRR BaseR (R138). -/
  | jsrr (baseR : Reg)
  /-- LD DR, offset9 (spec/42_loadstore.md R150). -/
  | ld (dr : Reg) (off : Word)
  /-- LDI DR, offset9 (R152). -/
  | ldi (dr : Reg) (off : Word)
  /-- LDR DR, BaseR, #offset6 (R154). -/
  | ldr (dr baseR : Reg) (off : Word)
  /-- LEA DR, offset9 (R156). -/
  | lea (dr : Reg) (off : Word)
  /-- ST SR, offset9 (R158). -/
  | st (sr : Reg) (off : Word)
  /-- STI SR, offset9 (R160). -/
  | sti (sr : Reg) (off : Word)
  /-- STR SR, BaseR, #offset6 (R162). -/
  | str (sr baseR : Reg) (off : Word)
  /-- GETC, TRAP x20 (spec/43_trap.md R182). -/
  | trapGetc
  /-- OUT, TRAP x21 (R184). -/
  | trapOut
  /-- PUTS, TRAP x22 (R186). -/
  | trapPuts
  /-- IN, TRAP x23 (R183). -/
  | trapIn
  /-- PUTSP, TRAP x24 (R188). -/
  | trapPutsp
  /-- HALT, TRAP x25 (R190). -/
  | trapHalt
deriving DecidableEq, Repr

/-- The instruction is a Trap, whatever its code (R70, R86). -/
def Instr.isTrap : Instr → Bool
  | .trapGetc | .trapOut | .trapPuts | .trapIn | .trapPutsp | .trapHalt => true
  | .addReg _ _ _ | .addImm _ _ _ | .andReg _ _ _ | .andImm _ _ _ | .not _ _ | .br _ _ | .jmp _ | .jsr _ | .jsrr _
  | .ld _ _ | .ldi _ _ | .ldr _ _ _ | .lea _ _ | .st _ _ | .sti _ _ | .str _ _ _ => false

end Sys2Proof
end

