-- ==== Sys2Proof/WellFormed.lean ====
section
/-! DEFINITION. Well-formed instructions: every immediate and offset is a value its field can hold (spec/30_encoding.md R96).
A register index and a branch mask are 3-bit fields by their type (R88, R84), so they need no check here; the assembler refuses
an index outside 0..7 (Machine/Assembler.lean). -/

namespace Sys2Proof

/-- The word, read as a signed number (spec/00_scope.md R8), lies between lo and hi, both inclusive. -/
def signedWithin (lo hi : Int) (v : Word) : Bool := decide (lo ≤ v.toInt ∧ v.toInt ≤ hi)

/-- imm5 is a word of -16..15 (R77, R96). -/
def isImm5 (v : Word) : Bool := signedWithin (-16) 15 v

/-- offset6 is a word of -32..31 (R80, R96). -/
def isOffset6 (v : Word) : Bool := signedWithin (-32) 31 v

/-- offset9 is a word of -256..255 (R79, R84, R96). -/
def isOffset9 (v : Word) : Bool := signedWithin (-256) 255 v

/-- offset11 is a word of -1024..1023 (R82, R96). -/
def isOffset11 (v : Word) : Bool := signedWithin (-1024) 1023 v

/-- The instruction's operands fit their fields (R96). -/
def Instr.wf : Instr → Bool
  | .addReg _ _ _ => true
  | .addImm _ _ imm => isImm5 imm
  | .andReg _ _ _ => true
  | .andImm _ _ imm => isImm5 imm
  | .not _ _ => true
  | .br _ off => isOffset9 off
  | .jmp _ => true
  | .jsr off => isOffset11 off
  | .jsrr _ => true
  | .ld _ off => isOffset9 off
  | .ldi _ off => isOffset9 off
  | .ldr _ _ off => isOffset6 off
  | .lea _ off => isOffset9 off
  | .st _ off => isOffset9 off
  | .sti _ off => isOffset9 off
  | .str _ _ off => isOffset6 off
  | .trapGetc => true
  | .trapOut => true
  | .trapPuts => true
  | .trapIn => true
  | .trapPutsp => true
  | .trapHalt => true

end Sys2Proof
end

