-- ==== Sys2Proof/Decode.lean ====
section
/-! DEFINITION. The decoder, total on the 65,536 words (spec/30_encoding.md R89), and after it the encoder (R95), both written
from the formats R76 to R86. Opcode values other than 8 and 13, field positions and trap codes are the spec's own supply from the
LC-3 (PRESUMED, notes/assumptions/1.md). -/

namespace Sys2Proof

/-- Why a word is no instruction (R90, R91). -/
inductive DecodeFault where
  /-- The opcode is 8 or 13 (R90). -/
  | unrecognizedOpcode
  /-- The opcode is 15 and the low byte is none of the six trap codes (R91). -/
  | unrecognizedTrapCode
deriving DecidableEq, Repr

/-- What the decoder makes of a word: one instruction or one decode fault (R89). -/
inductive Decoded where
  | ok (i : Instr)
  | error (c : DecodeFault)
deriving DecidableEq, Repr

/-- The opcode, w[15:12] (R72). -/
def opcodeOf (w : Word) : BitVec 4 := w.extractLsb' 12 4

/-- The register field w[11:9]: dr, or sr of a store (R76 to R80). -/
def regHigh (w : Word) : Reg := w.extractLsb' 9 3

/-- The register field w[8:6]: sr1, sr of Not, base_r (R76, R78, R80, R81, R83). -/
def regMid (w : Word) : Reg := w.extractLsb' 6 3

/-- The register field w[2:0]: sr2 (R76). -/
def regLow (w : Word) : Reg := w.extractLsb' 0 3

/-- The branch mask w[11:9], n first (R84). -/
def maskField (w : Word) : BitVec 3 := w.extractLsb' 9 3

/-- w[5], which selects the immediate form of Add and And (R74). -/
def immediateMode (w : Word) : Bool := w.getLsbD 5

/-- w[11], which selects the offset form of JumpSubRoutine (R74). -/
def offsetMode (w : Word) : Bool := w.getLsbD 11

/-- trapvect8, w[7:0] (R85). -/
def trapVector (w : Word) : Byte := w.extractLsb' 0 8

/-- sext_5 of w[4:0] (R9, R87). -/
def imm5Of (w : Word) : Word := (w.extractLsb' 0 5).signExtend 16

/-- sext_6 of w[5:0] (R9, R87). -/
def offset6Of (w : Word) : Word := (w.extractLsb' 0 6).signExtend 16

/-- sext_9 of w[8:0] (R9, R87). -/
def offset9Of (w : Word) : Word := (w.extractLsb' 0 9).signExtend 16

/-- sext_11 of w[10:0] (R9, R87). -/
def offset11Of (w : Word) : Word := (w.extractLsb' 0 11).signExtend 16

/-- The six trap codes (R86); every other code is rejected (R91). -/
def decodeTrap (v : Byte) : Decoded :=
  match v with
  | 0x20#8 => .ok .trapGetc
  | 0x21#8 => .ok .trapOut
  | 0x22#8 => .ok .trapPuts
  | 0x23#8 => .ok .trapIn
  | 0x24#8 => .ok .trapPutsp
  | 0x25#8 => .ok .trapHalt
  | _ => .error .unrecognizedTrapCode

/-- The instruction a word stands for, or why it stands for none (R89). The last arm is reached by no 4-bit value. -/
def decode (w : Word) : Decoded :=
  match opcodeOf w with
  | 0x0#4 => .ok (.br (maskField w) (offset9Of w))
  | 0x1#4 =>
    if immediateMode w then .ok (.addImm (regHigh w) (regMid w) (imm5Of w))
    else .ok (.addReg (regHigh w) (regMid w) (regLow w))
  | 0x2#4 => .ok (.ld (regHigh w) (offset9Of w))
  | 0x3#4 => .ok (.st (regHigh w) (offset9Of w))
  | 0x4#4 => if offsetMode w then .ok (.jsr (offset11Of w)) else .ok (.jsrr (regMid w))
  | 0x5#4 =>
    if immediateMode w then .ok (.andImm (regHigh w) (regMid w) (imm5Of w))
    else .ok (.andReg (regHigh w) (regMid w) (regLow w))
  | 0x6#4 => .ok (.ldr (regHigh w) (regMid w) (offset6Of w))
  | 0x7#4 => .ok (.str (regHigh w) (regMid w) (offset6Of w))
  | 0x8#4 => .error .unrecognizedOpcode
  | 0x9#4 => .ok (.not (regHigh w) (regMid w))
  | 0xA#4 => .ok (.ldi (regHigh w) (offset9Of w))
  | 0xB#4 => .ok (.sti (regHigh w) (offset9Of w))
  | 0xC#4 => .ok (.jmp (regMid w))
  | 0xD#4 => .error .unrecognizedOpcode
  | 0xE#4 => .ok (.lea (regHigh w) (offset9Of w))
  | 0xF#4 => decodeTrap (trapVector w)
  | _ => .error .unrecognizedOpcode

/-- The low n bits of an operand word: what its field holds (R95). -/
def lowBits (n : Nat) (v : Word) : BitVec n := v.extractLsb' 0 n

/-- The word of an instruction (R95): the opcode, each field at its position, the mode bits, and the canonical value in the bits
that decode ignores (0, but 1 in Not's). The encoder checks no operand (R96): it is meant for well-formed instructions. -/
def encode : Instr → Word
  | .addReg dr sr1 sr2 => 0x1#4 ++ dr ++ sr1 ++ 0#1 ++ 0#2 ++ sr2
  | .addImm dr sr1 imm => 0x1#4 ++ dr ++ sr1 ++ 1#1 ++ lowBits 5 imm
  | .andReg dr sr1 sr2 => 0x5#4 ++ dr ++ sr1 ++ 0#1 ++ 0#2 ++ sr2
  | .andImm dr sr1 imm => 0x5#4 ++ dr ++ sr1 ++ 1#1 ++ lowBits 5 imm
  | .not dr sr => 0x9#4 ++ dr ++ sr ++ 0b111111#6
  | .br nzp off => 0x0#4 ++ nzp ++ lowBits 9 off
  | .jmp baseR => 0xC#4 ++ 0#3 ++ baseR ++ 0#6
  | .jsr off => 0x4#4 ++ 1#1 ++ lowBits 11 off
  | .jsrr baseR => 0x4#4 ++ 0#1 ++ 0#2 ++ baseR ++ 0#6
  | .ld dr off => 0x2#4 ++ dr ++ lowBits 9 off
  | .ldi dr off => 0xA#4 ++ dr ++ lowBits 9 off
  | .ldr dr baseR off => 0x6#4 ++ dr ++ baseR ++ lowBits 6 off
  | .lea dr off => 0xE#4 ++ dr ++ lowBits 9 off
  | .st sr off => 0x3#4 ++ sr ++ lowBits 9 off
  | .sti sr off => 0xB#4 ++ sr ++ lowBits 9 off
  | .str sr baseR off => 0x7#4 ++ sr ++ baseR ++ lowBits 6 off
  | .trapGetc => 0xF#4 ++ 0#4 ++ 0x20#8
  | .trapOut => 0xF#4 ++ 0#4 ++ 0x21#8
  | .trapPuts => 0xF#4 ++ 0#4 ++ 0x22#8
  | .trapIn => 0xF#4 ++ 0#4 ++ 0x23#8
  | .trapPutsp => 0xF#4 ++ 0#4 ++ 0x24#8
  | .trapHalt => 0xF#4 ++ 0#4 ++ 0x25#8

/-- The instruction, where there is one. -/
def Decoded.toOption : Decoded → Option Instr
  | .ok i => some i
  | .error _ => none

/-- The bits decode ignores in a word of this opcode and mode (R92). -/
def ignoredMask (w : Word) : Word :=
  match opcodeOf w with
  | 0x1#4 => if immediateMode w then 0x0000 else 0x0018
  | 0x5#4 => if immediateMode w then 0x0000 else 0x0018
  | 0x9#4 => 0x003F
  | 0xC#4 => 0x0E3F
  | 0x4#4 => if offsetMode w then 0x0000 else 0x063F
  | 0xF#4 => 0x0F00
  | _ => 0x0000

/-- The canonical value of the ignored bits: 1 in Not's, 0 in every other (R95). -/
def canonicalIgnored (w : Word) : Word := if opcodeOf w = 0x9#4 then 0x003F else 0x0000

/-- The word's ignored bits hold their canonical value (R95). -/
def isCanonical (w : Word) : Bool := (w &&& ignoredMask w) == canonicalIgnored w

/-- The instruction the decoder reads from the word whose bits are w (the table's numbering is the spec's: bit 0 is the least
significant bit of the one word an instruction has, R7, R71). -/
def decodeTableWord (nbits w : Nat) : Option Instr := (decode (BitVec.ofNat 16 (w % 2 ^ nbits))).toOption

end Sys2Proof
end

