-- ==== Sys2Proof/Config.lean ====
section
/-! DEFINITION. What the spec leaves to the surroundings of the core: the console's answers (spec/43_trap.md R180,
spec/92_eei_decisions.md D26, D29) and the two texts it does not give (D17). The constants here have no value that Lean could
compute or prove anything about. -/

namespace Sys2Proof

/-- The console's answer to one ReadByte: one byte, or failure (R180). -/
inductive ReadAnswer where
  | byte (b : Byte)
  | failure
deriving DecidableEq, Repr, Inhabited

/-- The console's answer to one WriteByte, Flush or SignalTermination: done, or failure (R180). -/
inductive Ack where
  | done
  | failure
deriving DecidableEq, Repr, Inhabited

namespace Config

/-- The console's k-th read answer that no list in State gives: a draw of the console agent (D26), a free value. -/
opaque consoleRead : Nat → ReadAnswer

/-- The console's k-th run of answers done to writes, flushes and termination signals that no list in State gives: how many there
are before an answer failure, or none where no failure ever comes (D29). A free value. Runs, and not single answers, are drawn so
that a step can ask whether any failure is to come (R186, notes/assumptions/8.md). -/
opaque doneRun : Nat → Option Nat

/-- IN_PROMPT: the bytes Trap In prints; the spec gives no text (D17). -/
opaque inPrompt : List Byte

/-- HALT_NOTICE: the bytes Trap Halt prints; the spec gives no text (D17). -/
opaque haltNotice : List Byte

end Config

end Sys2Proof
end

