-- ==== Sys2Proof/Machine/State.lean ====
section
/-! DEFINITION. The state of the core (spec/10_state.md R20 to R36), the console's side of the console port
(spec/43_trap.md R180), and the state after reset (R40). Plain data throughout. -/

namespace Sys2Proof.Machine

/-- A condition flag; exactly one is held at any time (R28). -/
inductive Flag where
  /-- NEGATIVE. -/
  | n
  /-- ZERO. -/
  | z
  /-- POSITIVE. -/
  | p
deriving DecidableEq, Repr

/-- The three causes of a fault (spec/60_exceptions.md R210). -/
inductive FaultCause where
  | unrecognizedOpcode
  | unrecognizedTrapCode
  | ioFailure
deriving DecidableEq, Repr

/-- What a fault records: its cause, the instruction word and the address it was fetched from (R32, R210). -/
structure FaultRecord where
  cause : FaultCause
  word : Word
  address : Word
deriving DecidableEq, Repr

/-- The memory array (R35): word address and word, addresses strictly rising, no entry equal to what an unlisted address reads
as. The smallest addressable unit is the word (spec/20_memory.md R52, R55; DEDUCED, safe, notes/assumptions/5.md). -/
abbrev Memory := List (Nat × Word)

/-- A console operation that has completed (R180; the events of spec/95_test_vectors.md). -/
inductive ConsoleEvent where
  /-- WriteByte of one byte. -/
  | write (b : Byte)
  /-- ReadByte, answered with this byte. -/
  | read (b : Byte)
  /-- Flush. -/
  | flush
  /-- SignalTermination. -/
  | terminate
deriving DecidableEq, Repr

/-- The console as the core meets it (R180): the answers it will give, which are inputs, and the operations completed so far.
Once the list of read answers is used up, the next one is a free draw, or, on a silent console, never comes. Once the list of the
other answers is used up, they follow runs of done answers whose lengths are free draws (DESIGN CHOICE, notes/assumptions/6.md). -/
structure Console where
  /-- The next answers to ReadByte, oldest first. -/
  reads : List ReadAnswer
  /-- After the listed answers the console never answers a read again (the hold of R252). -/
  silent : Bool
  /-- The next answers to WriteByte, Flush and SignalTermination, oldest first. -/
  acks : List Ack
  /-- After the listed answers: how many answers done come before one that is failure, or none where no failure ever comes. -/
  doneRun : Option Nat
  /-- The model's own counter: read answers drawn so far. -/
  readDraws : Nat
  /-- The model's own counter: runs drawn so far. -/
  ackDraws : Nat
  /-- The operations completed so far, oldest first. -/
  events : List ConsoleEvent
deriving DecidableEq, Repr

/-- The two texts the spec leaves as parameters (spec/00_scope.md R6); no step changes them. -/
structure Texts where
  /-- IN_PROMPT. -/
  inPrompt : List Byte
  /-- HALT_NOTICE. -/
  haltNotice : List Byte
deriving DecidableEq, Repr

/-- The whole state of the machine. -/
structure State where
  /-- R0 to R7 (R20). -/
  regs : Vector Word 8
  /-- The program counter: between steps, the address of the next instruction (R24). -/
  pc : Word
  /-- The condition flag (R28). -/
  cond : Flag
  /-- The running bit (R31). -/
  running : Bool
  /-- The fault status (R32). -/
  fault : Option FaultRecord
  /-- The memory array (R35). -/
  mem : Memory
  /-- IN_PROMPT and HALT_NOTICE (R6). -/
  texts : Texts
  /-- The console port (R180). -/
  console : Console
deriving DecidableEq, Repr

/-- Why the machine stops. -/
inductive Fault where
  /-- Raised by step on a core whose fault status is not none: it takes no further step (R212). Safe: the hardware does nothing
  either (notes/assumptions/11.md). -/
  | coreFaulted (r : FaultRecord)
  /-- Raised by Trap GetC and Trap In when the console never answers their read: the core holds (R180, R252). Safe: the hardware
  waits for ever and has no next state (notes/assumptions/7.md). -/
  | consoleHold
  /-- Raised by Trap Puts and Trap PutsP when memory holds no zero word and no write fails: the loop never ends (R186, R188).
  Safe: the hardware never completes the instruction (notes/assumptions/8.md). -/
  | stringNeverEnds
deriving DecidableEq, Repr

/-- Why an instruction has no meaning. -/
inductive Refusal where
  /-- Raised by an arm of exec whose instruction has no meaning yet; no arm does so now. Safe: nothing is claimed of it. -/
  | notModelled (mnemonic : String)
deriving DecidableEq, Repr

/-- What a step or a meaning answers. -/
abbrev Result := Host.Outcome State Fault Refusal

/-- The program-start address (R5, R40). -/
def startAddress : Word := 0x3000

/-- A console before its first operation, none of whose answers is listed: the first run is drawn, and the reads are still to be
(R180). -/
def Console.fresh : Console :=
  { reads := [], silent := false, acks := [], doneRun := Config.doneRun 0, readDraws := 0, ackDraws := 1, events := [] }

/-- Construction, the host's RESET action (R40, spec/70_reset_and_hazards.md R240): the open parameters REG_INIT, COND_INIT,
MEM_INIT and the two texts are arguments (R6), and so is the console that the core is built against. -/
def State.construct (regs : Vector Word 8) (cond : Flag) (image : Memory) (texts : Texts) (console : Console) : State :=
  { regs := regs, pc := startAddress, cond := cond, running := false, fault := none, mem := image, texts := texts,
    console := console }

/-- The machine right after reset with nothing placed. The spec leaves the registers, the flag and the image open; here they
are those of the common start state of spec/95_test_vectors.md Part 3: every register 0x0000, Z, every word 0x0000 (DESIGN
CHOICE, unsafe, notes/assumptions/2.md, 3.md, 4.md). The texts are uninterpreted (notes/assumptions/10.md). -/
def State.reset : State :=
  State.construct (Vector.replicate 8 0) .z [] { inPrompt := Config.inPrompt, haltNotice := Config.haltNotice } Console.fresh

end Sys2Proof.Machine
end

