-- ==== Sys2Proof/Machine/Flags.lean ====
section
/-! DEFINITION. The condition-flag logic (spec/10_state.md R27, R28). -/

namespace Sys2Proof.Machine

/-- The flag of a written value: zero, high bit set, or neither (R27). -/
def flagOf (v : Word) : Flag :=
  if v = 0 then .z else if v.getLsbD 15 then .n else .p

/-- A flag as a one-hot mask, in the bit order of the branch field: N = 0b100, Z = 0b010, P = 0b001 (R28). -/
def Flag.mask : Flag → BitVec 3
  | .n => 0b100#3
  | .z => 0b010#3
  | .p => 0b001#3

/-- The held flag intersects the branch mask (spec/41_control.md R132). -/
def Flag.selectedBy (c : Flag) (nzp : BitVec 3) : Bool := (c.mask &&& nzp) != 0#3

end Sys2Proof.Machine
end

