-- ==== Sys2Proof/Machine/Ops.lean ====
section
/-! DEFINITION. The named operations over memory and registers (spec/20_memory.md R52, spec/10_state.md R25, R27), fetch, and
taking a fault (spec/60_exceptions.md R212). There is no return from a fault (R217): only construction leaves the faulted
state. -/

namespace Sys2Proof.Machine

/-- What a word that no entry lists holds: 0x0000. With it every image of 65,536 words is a list (R42; DESIGN CHOICE for the
empty list of State.reset, notes/assumptions/4.md). -/
def unlistedWord : Word := 0

/-- The number of words of the memory array (R5, R35). -/
def memoryWords : Nat := 65536

/-- The word at an address. -/
def Memory.read : Memory → Nat → Word
  | [], _ => unlistedWord
  | (k, w) :: rest, a => if a = k then w else Memory.read rest a

/-- An entry in front of a memory, left out when it says what an unlisted address says. -/
def Memory.entry (a : Nat) (v : Word) (m : Memory) : Memory := if v = unlistedWord then m else (a, v) :: m

/-- The memory with one word replaced, in canonical form again. -/
def Memory.write : Memory → Nat → Word → Memory
  | [], a, v => Memory.entry a v []
  | (k, w) :: rest, a, v =>
    if a < k then Memory.entry a v ((k, w) :: rest)
    else if a = k then Memory.entry a v rest
    else (k, w) :: Memory.write rest a v

/-- Every entry lies at or above lo and inside the array, addresses rise strictly, and no entry says what an unlisted address
says. -/
def Memory.wfFrom : Nat → Memory → Bool
  | _, [] => true
  | lo, (k, w) :: rest => decide (lo ≤ k) && decide (k < memoryWords) && decide (w ≠ unlistedWord) && Memory.wfFrom (k + 1) rest

/-- The canonical form: equal memories are equal lists. -/
def Memory.wf (m : Memory) : Bool := Memory.wfFrom 0 m

/-- A memory that holds these words from an address on: how the loader's image is laid out (spec/70_reset_and_hazards.md
R242), each address modulo 2^16. -/
def Memory.load (m : Memory) : Word → List Word → Memory
  | _, [] => m
  | a, w :: rest => Memory.load (Memory.write m a.toNat w) (a + 1) rest

/-- x[r] (R11). -/
def State.reg (s : State) (r : Reg) : Word := s.regs[r.toNat]'r.isLt

/-- The register write port: the register and the flag together (R26, R27). -/
def State.setReg (s : State) (r : Reg) (v : Word) : State :=
  { s with regs := s.regs.set r.toNat v r.isLt, cond := flagOf v }

/-- pc <- target (R11). -/
def State.setPc (s : State) (target : Word) : State := { s with pc := target }

/-- MemRead(a, 1) (R52). -/
def State.readMem (s : State) (a : Word) : Word := Memory.read s.mem a.toNat

/-- MemWrite(a, 1, v) (R52). -/
def State.writeMem (s : State) (a v : Word) : State := { s with mem := Memory.write s.mem a.toNat v }

/-- The word the next step fetches (R25). -/
def State.fetchWord (s : State) : Word := s.readMem s.pc

/-- The fetch increment, the sole auto-increment of pc (R25). -/
def State.advance (s : State) : State := { s with pc := s.pc + 1 }

/-- The address of the instruction being executed: pc holds it plus 1 (R24, R130). -/
def State.currentAddress (s : State) : Word := s.pc - 1

/-- raise Fault(cause, (w, A)) during the execution of an instruction (R212): the cause is recorded with the instruction's word
and address, and nothing else changes. The word is read back from its address, where no Trap has written since the fetch
(DEDUCED, safe, notes/assumptions/12.md). -/
def State.raise (s : State) (c : FaultCause) : State :=
  { s with fault := some { cause := c, word := s.readMem s.currentAddress, address := s.currentAddress } }

/-- The fault cause of a word that is no instruction (R211). -/
def causeOf : DecodeFault → FaultCause
  | .unrecognizedOpcode => .unrecognizedOpcode
  | .unrecognizedTrapCode => .unrecognizedTrapCode

/-- The number of a fault cause (R210). -/
def FaultCause.code : FaultCause → Nat
  | .unrecognizedOpcode => 1
  | .unrecognizedTrapCode => 2
  | .ioFailure => 3

/-- A fetched word that is no instruction: pc keeps the fetch increment and the fault is recorded (R211, R212). -/
def State.takeDecodeFault (s : State) (c : DecodeFault) : State := s.advance.raise (causeOf c)

/-- The state in which the next fetch gives this word: the word stands at pc, and the core is not in the faulted state, in which
it would fetch nothing (R212). The image's load, as far as one instruction goes (notes/assumptions/21.md). -/
def State.placeWord (s : State) (w : Word) : State := { s.writeMem s.pc w with fault := none }

end Sys2Proof.Machine
end

