-- ==== Sys2Proof/Machine/Operands.lean ====
section
/-! DEFINITION. The ALU (spec/40_operate.md R110), the address forms (spec/20_memory.md R50) and the parts of a word the traps
use (spec/00_scope.md R10). All arithmetic is modulo 2^16 (R51). -/

namespace Sys2Proof.Machine

/-- 16-bit wraparound addition (R110). -/
def add16 (a b : Word) : Word := a + b

/-- Bitwise AND (R110). -/
def and16 (a b : Word) : Word := a &&& b

/-- Bitwise complement (R110). -/
def not16 (a : Word) : Word := ~~~a

/-- pc plus an offset: a data address, an address value or a branch target; pc is the incremented one (R50, R130, R131). -/
def pcRelative (s : State) (off : Word) : Word := s.pc + off

/-- A base register plus an offset (R50). -/
def baseOffset (s : State) (baseR : Reg) (off : Word) : Word := s.reg baseR + off

/-- The address a word in memory holds (R50). -/
def indirect (s : State) (off : Word) : Word := s.readMem (pcRelative s off)

/-- w[7:0] (R10). -/
def lo8 (w : Word) : Byte := w.extractLsb' 0 8

/-- w[15:8] (R10). -/
def hi8 (w : Word) : Byte := w.extractLsb' 8 8

/-- zext_16 of a byte (R9). -/
def zext16 (b : Byte) : Word := b.setWidth 16

/-- The words from an address up to the first zero word, at most fuel of them: the reads of Puts and PutsP (R53, R186). -/
def stringWords (m : Memory) : Nat → Word → List Word
  | 0, _ => []
  | fuel + 1, a =>
    if Memory.read m a.toNat = 0 then [] else Memory.read m a.toNat :: stringWords m fuel (a + 1)

/-- The byte Puts writes for a word: its low 8 bits (spec/43_trap.md R186). -/
def putsBytes (w : Word) : List Byte := [lo8 w]

/-- The bytes PutsP writes for a word: the low byte, then the high byte unless it is zero (R188). -/
def putspBytes (w : Word) : List Byte := if hi8 w = 0 then [lo8 w] else [lo8 w, hi8 w]

end Sys2Proof.Machine
end

