-- ==== Sys2Proof/Machine/Control.lean ====
section
/-! DEFINITION. The branch unit (spec/41_control.md R132 to R138). pc is the incremented one (R130). -/

namespace Sys2Proof.Machine

/-- The link register (R21). -/
def linkReg : Reg := 7

/-- Branch (R132); a mask of 0b000 is never taken (R94). -/
def execBr (nzp : BitVec 3) (off : Word) (s : State) : Result :=
  .next (if s.cond.selectedBy nzp then s.setPc (pcRelative s off) else s)

/-- Jump (R134). -/
def execJmp (baseR : Reg) (s : State) : Result := .next (s.setPc (s.reg baseR))

/-- JumpSubRoutineOffset (R136): the link write sets the flag (spec/90_conflicts.md C4). -/
def execJsr (off : Word) (s : State) : Result := .next ((s.setReg linkReg s.pc).setPc (pcRelative s off))

/-- JumpSubRoutineRegister (R138): the base register is read after the link write. -/
def execJsrr (baseR : Reg) (s : State) : Result :=
  .next ((s.setReg linkReg s.pc).setPc ((s.setReg linkReg s.pc).reg baseR))

end Sys2Proof.Machine
end

