-- ==== Sys2Proof/Machine/LoadStore.lean ====
section
/-! DEFINITION. Loads and stores (spec/42_loadstore.md R150 to R162). -/

namespace Sys2Proof.Machine

/-- Load (R150). -/
def execLd (dr : Reg) (off : Word) (s : State) : Result := .next (s.setReg dr (s.readMem (pcRelative s off)))

/-- LoadIndirect (R152): the pointer's read, then the data's. -/
def execLdi (dr : Reg) (off : Word) (s : State) : Result := .next (s.setReg dr (s.readMem (indirect s off)))

/-- LoadBaseOffset (R154). -/
def execLdr (dr baseR : Reg) (off : Word) (s : State) : Result :=
  .next (s.setReg dr (s.readMem (baseOffset s baseR off)))

/-- LoadEffectiveAddress (R156): no memory access; the flag is that of the address. -/
def execLea (dr : Reg) (off : Word) (s : State) : Result := .next (s.setReg dr (pcRelative s off))

/-- Store (R158). -/
def execSt (sr : Reg) (off : Word) (s : State) : Result := .next (s.writeMem (pcRelative s off) (s.reg sr))

/-- StoreIndirect (R160): the pointer is read before the write. -/
def execSti (sr : Reg) (off : Word) (s : State) : Result := .next (s.writeMem (indirect s off) (s.reg sr))

/-- StoreBaseOffset (R162). -/
def execStr (sr baseR : Reg) (off : Word) (s : State) : Result :=
  .next (s.writeMem (baseOffset s baseR off) (s.reg sr))

end Sys2Proof.Machine
end

