-- ==== Sys2Proof/Machine/Operate.lean ====
section
/-! DEFINITION. The operate instructions (spec/40_operate.md R111 to R115). -/

namespace Sys2Proof.Machine

/-- AddRegister (R111). -/
def execAddReg (dr sr1 sr2 : Reg) (s : State) : Result := .next (s.setReg dr (add16 (s.reg sr1) (s.reg sr2)))

/-- AddImmediate (R112). -/
def execAddImm (dr sr1 : Reg) (imm : Word) (s : State) : Result := .next (s.setReg dr (add16 (s.reg sr1) imm))

/-- AndRegister (R113). -/
def execAndReg (dr sr1 sr2 : Reg) (s : State) : Result := .next (s.setReg dr (and16 (s.reg sr1) (s.reg sr2)))

/-- AndImmediate (R114). -/
def execAndImm (dr sr1 : Reg) (imm : Word) (s : State) : Result := .next (s.setReg dr (and16 (s.reg sr1) imm))

/-- Not (R115). -/
def execNot (dr sr : Reg) (s : State) : Result := .next (s.setReg dr (not16 (s.reg sr)))

end Sys2Proof.Machine
end

