-- ==== Sys2Proof/Machine/Console.lean ====
section
/-! DEFINITION. The console port (spec/43_trap.md R180): each operation is a request that completes before the core goes on, or
whose failure raises Fault(IoFailure) at that point. A meaning chains its operations in Except: ok goes on, error is the state
in which the step ends after the fault. -/

namespace Sys2Proof.Machine

/-- The console's answer to the next write, flush or termination signal (R180): the next one listed, or done while the run
lasts and failure at its end. -/
def Console.nextAck (c : Console) : Ack :=
  match c.acks, c.doneRun with
  | a :: _, _ => a
  | [], some 0 => .failure
  | [], some (_ + 1) => .done
  | [], none => .done

/-- The console once it has given the answer nextAck; after a failure that ends a run, another run is drawn. -/
def Console.popAck (c : Console) : Console :=
  match c.acks, c.doneRun with
  | _ :: rest, _ => { c with acks := rest }
  | [], some 0 => { c with doneRun := Config.doneRun c.ackDraws, ackDraws := c.ackDraws + 1 }
  | [], some (n + 1) => { c with doneRun := some n }
  | [], none => c

/-- The console's answer to the k-th write, flush or termination signal from now on. -/
def Console.ackAt : Console → Nat → Ack
  | c, 0 => c.nextAck
  | c, k + 1 => Console.ackAt c.popAck k

/-- How many answers done these answers and the run after them give before the first failure; none where it never comes. -/
def firstFailureIn : List Ack → Option Nat → Option Nat
  | [], run => run
  | .failure :: _, _ => some 0
  | .done :: rest, run => (firstFailureIn rest run).map (· + 1)

/-- How many writes, flushes and signals complete from now on before one fails; none where none ever fails (R180). -/
def Console.firstFailure (c : Console) : Option Nat := firstFailureIn c.acks c.doneRun

/-- The console's answer to the next read; none when it never answers (R180, R252). -/
def Console.nextRead (c : Console) : Option ReadAnswer :=
  match c.reads, c.silent with
  | a :: _, _ => some a
  | [], false => some (Config.consoleRead c.readDraws)
  | [], true => none

/-- The console once it has given the answer nextRead. -/
def Console.popRead (c : Console) : Console :=
  match c.reads with
  | _ :: rest => { c with reads := rest }
  | [] => { c with readDraws := c.readDraws + 1 }

/-- One more completed operation. -/
def Console.log (c : Console) (e : ConsoleEvent) : Console := { c with events := c.events ++ [e] }

/-- One WriteByte, Flush or SignalTermination (R180). -/
def request (e : ConsoleEvent) (s : State) : Except State State :=
  match s.console.nextAck with
  | .done => .ok { s with console := s.console.popAck.log e }
  | .failure => .error ({ s with console := s.console.popAck }.raise .ioFailure)

/-- These operations in order, up to the first that fails (R180). -/
def requests : List ConsoleEvent → State → Except State State
  | [], s => .ok s
  | e :: rest, s => (request e s).bind (requests rest)

/-- The answer of a read, taken: the byte zero-extended into R0, with its flag, or IoFailure (R180, R182). -/
def takeRead (answer : ReadAnswer) (s : State) : Except State State :=
  match answer with
  | .byte b => .ok ({ s with console := s.console.popRead.log (.read b) }.setReg 0 (zext16 b))
  | .failure => .error ({ s with console := s.console.popRead }.raise .ioFailure)

/-- The state in which the step ends, completed or ended by the fault. -/
def settle : Except State State → State
  | .ok s => s
  | .error s => s

/-- Writes of these bytes. -/
def writesOf (bytes : List Byte) : List ConsoleEvent := bytes.map ConsoleEvent.write

/-- The writes of the words from x[0] up to the first zero word, at most fuel words of them. -/
def stringWrites (bytesOf : Word → List Byte) (fuel : Nat) (s : State) : List ConsoleEvent :=
  writesOf ((stringWords s.mem fuel (s.reg 0)).flatMap bytesOf)

/-- The string traps: write the bytes of each word from x[0] up to the first zero word, then flush (R186, R188). Where memory
has no zero word the loop ends only at a write that fails: if k writes complete before it, the bytes of k + 1 words reach it,
since each word gives at least one byte. If no write ever fails the loop never ends (notes/assumptions/8.md). -/
def printString (bytesOf : Word → List Byte) (s : State) : Result :=
  if (stringWords s.mem memoryWords (s.reg 0)).length < memoryWords then
    .next (settle (requests (stringWrites bytesOf memoryWords s ++ [.flush]) s))
  else
    match s.console.firstFailure with
    | some k => .next (settle (requests (stringWrites bytesOf (k + 1) s) s))
    | none => .fault .stringNeverEnds

end Sys2Proof.Machine
end

