-- ==== Sys2Proof/Machine/Traps.lean ====
section
/-! DEFINITION. The six traps (spec/43_trap.md R182 to R190). A Trap is serviced within its own step and leaves pc at the next
word (R181). -/

namespace Sys2Proof.Machine

/-- Trap GetC (R182). -/
def execTrapGetc (s : State) : Result :=
  match s.console.nextRead with
  | none => .fault .consoleHold
  | some answer => .next (settle (takeRead answer s))

/-- Trap Out (R184). -/
def execTrapOut (s : State) : Result := .next (settle (requests [.write (lo8 (s.reg 0)), .flush] s))

/-- Trap Puts (R186). -/
def execTrapPuts (s : State) : Result := printString putsBytes s

/-- Trap In (R183): the prompt, the read, then the flush; the byte read is not echoed. The core holds only once the prompt is
out. -/
def execTrapIn (s : State) : Result :=
  let printed := requests (writesOf s.texts.inPrompt) s
  match s.console.nextRead with
  | none =>
    match printed with
    | .error t => .next t
    | .ok _ => .fault .consoleHold
  | some answer => .next (settle ((printed.bind (takeRead answer)).bind (request .flush)))

/-- Trap PutsP (R188). -/
def execTrapPutsp (s : State) : Result := printString putspBytes s

/-- Trap Halt (R190): the notice, the termination signal, then running is cleared; no flush. -/
def execTrapHalt (s : State) : Result :=
  .next (settle ((requests (writesOf s.texts.haltNotice ++ [.terminate]) s).map fun t => { t with running := false }))

end Sys2Proof.Machine
end

