-- ==== Sys2Proof/Machine/Step.lean ====
section
/-! DEFINITION. One step (spec/70_reset_and_hazards.md R247), behind the gate of the faulted state (spec/60_exceptions.md R212).
It does not test running (R246); the run loop, START and STEP are in Machine/HostActions.lean. -/

namespace Sys2Proof.Machine

/-- Fetch, increment pc, decode, execute (R247). A core in the faulted state takes no step (R212). -/
def step (s : State) : Host.Outcome State Fault Refusal :=
  match s.fault with
  | some r => .fault (.coreFaulted r)
  | none =>
    match decode s.fetchWord with
    | .ok i => exec i s.advance
    | .error c => .next (s.takeDecodeFault c)

/-- The state whose next step runs the one-word instruction w: what a loader does for one instruction
(notes/assumptions/21.md). -/
def State.withFetchWord (s : State) (nbits w : Nat) : State := s.placeWord (BitVec.ofNat 16 (w % 2 ^ nbits))

end Sys2Proof.Machine
end

