-- ==== Sys2Proof/Machine/Assembler.lean ====
section
/-! DEFINITION. The assembler's statements as abstract syntax (spec/30_encoding.md R100 to R102) and their translation, which
refuses an operand outside its field (R96). Register numbers are any Nat and immediates any Int here, so that there is something
to refuse. The core itself never encodes; the spelling of a line (R104) is not modelled. -/

namespace Sys2Proof.Machine

/-- The second operand of ADD and AND (R100). -/
inductive AsmOperand where
  | reg (n : Nat)
  | num (v : Int)
deriving DecidableEq, Repr

/-- One line of assembly (R100, R101); a label stands as its address. A PC-relative operand is a label only, as R100's table has
it (DESIGN CHOICE, safe, notes/assumptions/24.md). -/
inductive AsmLine where
  | add (dr sr1 : Nat) (x : AsmOperand)
  | and (dr sr1 : Nat) (x : AsmOperand)
  | not (dr sr : Nat)
  | br (n z p : Bool) (label : Word)
  | jmp (baseR : Nat)
  | jsr (label : Word)
  | jsrr (baseR : Nat)
  | ld (dr : Nat) (label : Word)
  | ldi (dr : Nat) (label : Word)
  | lea (dr : Nat) (label : Word)
  | ldr (dr baseR : Nat) (off : Int)
  | st (sr : Nat) (label : Word)
  | sti (sr : Nat) (label : Word)
  | str (sr baseR : Nat) (off : Int)
  | trap (code : Nat)
  | ret
  | getc
  | out
  | puts
  | inn
  | putsp
  | halt
  | nop
deriving DecidableEq, Repr

/-- A register number, refused outside 0..7 (R96). -/
def asmReg (n : Nat) : Option Reg := if n < 8 then some (BitVec.ofNat 3 n) else none

/-- A number as a word, refused where the field's check fails on it or it is no 16-bit number at all (R96). -/
def asmNum (fits : Word → Bool) (v : Int) : Option Word :=
  if (BitVec.ofInt 16 v).toInt = v ∧ fits (BitVec.ofInt 16 v) then some (BitVec.ofInt 16 v) else none

/-- A label as the offset from the next word, refused where the field cannot hold it (R102, R96). -/
def asmLabel (fits : Word → Bool) (addr label : Word) : Option Word :=
  if fits (label - (addr + 1)) then some (label - (addr + 1)) else none

/-- The branch mask: each letter present sets its bit; no letter at all is BRnzp (R100, R101). -/
def asmMask (n z p : Bool) : BitVec 3 :=
  if n || z || p then BitVec.ofBool n ++ BitVec.ofBool z ++ BitVec.ofBool p else 0b111#3

/-- The instruction of a line that stands at addr, or none where the line is refused (R96, R100 to R102). -/
def assemble (addr : Word) : AsmLine → Option Instr
  | .add dr sr1 (.reg n) => (asmReg dr).bind fun d => (asmReg sr1).bind fun a => (asmReg n).map fun b => .addReg d a b
  | .add dr sr1 (.num v) => (asmReg dr).bind fun d => (asmReg sr1).bind fun a => (asmNum isImm5 v).map fun b => .addImm d a b
  | .and dr sr1 (.reg n) => (asmReg dr).bind fun d => (asmReg sr1).bind fun a => (asmReg n).map fun b => .andReg d a b
  | .and dr sr1 (.num v) => (asmReg dr).bind fun d => (asmReg sr1).bind fun a => (asmNum isImm5 v).map fun b => .andImm d a b
  | .not dr sr => (asmReg dr).bind fun d => (asmReg sr).map fun a => .not d a
  | .br n z p label => (asmLabel isOffset9 addr label).map fun o => .br (asmMask n z p) o
  | .jmp b => (asmReg b).map fun r => .jmp r
  | .jsr label => (asmLabel isOffset11 addr label).map fun o => .jsr o
  | .jsrr b => (asmReg b).map fun r => .jsrr r
  | .ld dr label => (asmReg dr).bind fun d => (asmLabel isOffset9 addr label).map fun o => .ld d o
  | .ldi dr label => (asmReg dr).bind fun d => (asmLabel isOffset9 addr label).map fun o => .ldi d o
  | .lea dr label => (asmReg dr).bind fun d => (asmLabel isOffset9 addr label).map fun o => .lea d o
  | .ldr dr b v => (asmReg dr).bind fun d => (asmReg b).bind fun r => (asmNum isOffset6 v).map fun o => .ldr d r o
  | .st sr label => (asmReg sr).bind fun d => (asmLabel isOffset9 addr label).map fun o => .st d o
  | .sti sr label => (asmReg sr).bind fun d => (asmLabel isOffset9 addr label).map fun o => .sti d o
  | .str sr b v => (asmReg sr).bind fun d => (asmReg b).bind fun r => (asmNum isOffset6 v).map fun o => .str d r o
  | .trap code => if code < 256 then (decodeTrap (BitVec.ofNat 8 code)).toOption else none
  | .ret => some (.jmp linkReg)
  | .getc => some .trapGetc
  | .out => some .trapOut
  | .puts => some .trapPuts
  | .inn => some .trapIn
  | .putsp => some .trapPutsp
  | .halt => some .trapHalt
  | .nop => some (.br 0b000#3 0)

end Sys2Proof.Machine
end

