-- ==== Sys2Proof/Machine/AssemblyText.lean ====
section
/-! DEFINITION. The text of one line of assembly (spec/30_encoding.md R100, R101, R104), read into an AsmLine. Text is a list of
characters. Labels are looked up in a table that the caller gives; the directives place data and are not modelled (R101). That
a comma counts as a blank and that letters are upper case, but for the x of a hexadecimal number and the letters of a Branch, is
a DESIGN CHOICE, and so is that a PC-relative operand is a label and never a number (safe, notes/assumptions/24.md). -/

namespace Sys2Proof.Machine

/-- A line as a list of characters. -/
abbrev Text := List Char

/-- The addresses of the labels. -/
abbrev LabelTable := List (Text × Word)

/-- The line up to its comment (R100). -/
def uncommented : Text → Text
  | [] => []
  | c :: rest => if c = ';' then [] else c :: uncommented rest

/-- What separates the parts of a line. -/
def isBlank (c : Char) : Bool := c == ' ' || c == '\t' || c == ','

/-- The parts of a line; word is the part read so far, in reverse. -/
def splitParts (word : Text) : Text → List Text
  | [] => if word = [] then [] else [word.reverse]
  | c :: rest =>
    if isBlank c then (if word = [] then splitParts [] rest else word.reverse :: splitParts [] rest)
    else splitParts (c :: word) rest

/-- A decimal digit. -/
def decDigit (c : Char) : Option Nat := if 48 ≤ c.toNat ∧ c.toNat ≤ 57 then some (c.toNat - 48) else none

/-- A hexadecimal digit, of either case. -/
def hexDigit (c : Char) : Option Nat :=
  if 48 ≤ c.toNat ∧ c.toNat ≤ 57 then some (c.toNat - 48)
  else if 65 ≤ c.toNat ∧ c.toNat ≤ 70 then some (c.toNat - 55)
  else if 97 ≤ c.toNat ∧ c.toNat ≤ 102 then some (c.toNat - 87)
  else none

/-- The number that digits give after the number acc. -/
def digitsFrom (base : Nat) (digit : Char → Option Nat) (acc : Nat) : Text → Option Nat
  | [] => some acc
  | c :: rest => (digit c).bind fun d => digitsFrom base digit (acc * base + d) rest

/-- The number of at least one digit. -/
def digitsOf (base : Nat) (digit : Char → Option Nat) : Text → Option Nat
  | [] => none
  | c :: rest => digitsFrom base digit 0 (c :: rest)

/-- A numeric operand: a number sign and a signed decimal number, or x and hexadecimal digits (R104). -/
def parseNum : Text → Option Int
  | '#' :: '-' :: ds => (digitsOf 10 decDigit ds).map fun n => -(n : Int)
  | '#' :: ds => (digitsOf 10 decDigit ds).map fun n => (n : Int)
  | 'x' :: ds => (digitsOf 16 hexDigit ds).map fun n => (n : Int)
  | _ => none

/-- A register: R and one digit; 8 and 9 are refused later (R100, R96). -/
def parseReg : Text → Option Nat
  | ['R', d] => decDigit d
  | _ => none

/-- The third operand of ADD and AND. -/
def parseOperand (t : Text) : Option AsmOperand :=
  match parseReg t with
  | some n => some (.reg n)
  | none => (parseNum t).map .num

/-- The address of a label. -/
def LabelTable.address (table : LabelTable) (t : Text) : Option Word := (table.find? fun e => e.1 == t).map Prod.snd

/-- The letters of a Branch, in the order n, z, p (R100). -/
def parseMask : Text → Option (Bool × Bool × Bool)
  | ['B', 'R'] => some (false, false, false)
  | ['B', 'R', 'n'] => some (true, false, false)
  | ['B', 'R', 'z'] => some (false, true, false)
  | ['B', 'R', 'p'] => some (false, false, true)
  | ['B', 'R', 'n', 'z'] => some (true, true, false)
  | ['B', 'R', 'n', 'p'] => some (true, false, true)
  | ['B', 'R', 'z', 'p'] => some (false, true, true)
  | ['B', 'R', 'n', 'z', 'p'] => some (true, true, true)
  | _ => none

/-- An instruction with no operand (R101). -/
def parseBare (m : Text) : Option AsmLine :=
  if m = ['R', 'E', 'T'] then some .ret
  else if m = ['G', 'E', 'T', 'C'] then some .getc
  else if m = ['O', 'U', 'T'] then some .out
  else if m = ['P', 'U', 'T', 'S'] then some .puts
  else if m = ['I', 'N'] then some .inn
  else if m = ['P', 'U', 'T', 'S', 'P'] then some .putsp
  else if m = ['H', 'A', 'L', 'T'] then some .halt
  else if m = ['N', 'O', 'P'] then some .nop
  else none

/-- An instruction with one operand (R100). The operand of a Branch and of JSR is a label of the table, as R100's table writes it;
a number in its place, as in the spec's examples BRp #10 and JSR #10, is refused (DESIGN CHOICE, safe,
notes/assumptions/24.md). -/
def parseOne (table : LabelTable) (m a : Text) : Option AsmLine :=
  match parseMask m with
  | some (n, z, p) => (table.address a).map fun l => .br n z p l
  | none =>
    if m = ['J', 'M', 'P'] then (parseReg a).map .jmp
    else if m = ['J', 'S', 'R'] then (table.address a).map .jsr
    else if m = ['J', 'S', 'R', 'R'] then (parseReg a).map .jsrr
    else if m = ['T', 'R', 'A', 'P'] then (parseNum a).bind fun v => if 0 ≤ v then some (.trap v.toNat) else none
    else none

/-- An instruction with two operands (R100). The second operand of LD, LDI, LEA, ST and STI is a label of the table; a number in
its place, as in the spec's example LD R1, #5, is refused (DESIGN CHOICE, safe, notes/assumptions/24.md). -/
def parseTwo (table : LabelTable) (m a b : Text) : Option AsmLine :=
  (parseReg a).bind fun r =>
    if m = ['N', 'O', 'T'] then (parseReg b).map fun q => .not r q
    else if m = ['L', 'D'] then (table.address b).map fun l => .ld r l
    else if m = ['L', 'D', 'I'] then (table.address b).map fun l => .ldi r l
    else if m = ['L', 'E', 'A'] then (table.address b).map fun l => .lea r l
    else if m = ['S', 'T'] then (table.address b).map fun l => .st r l
    else if m = ['S', 'T', 'I'] then (table.address b).map fun l => .sti r l
    else none

/-- An instruction with three operands (R100). -/
def parseThree (m a b c : Text) : Option AsmLine :=
  (parseReg a).bind fun r => (parseReg b).bind fun q =>
    if m = ['A', 'D', 'D'] then (parseOperand c).map fun x => .add r q x
    else if m = ['A', 'N', 'D'] then (parseOperand c).map fun x => .and r q x
    else if m = ['L', 'D', 'R'] then (parseNum c).map fun v => .ldr r q v
    else if m = ['S', 'T', 'R'] then (parseNum c).map fun v => .str r q v
    else none

/-- An instruction without a label in front. -/
def parseParts (table : LabelTable) : List Text → Option AsmLine
  | [m] => parseBare m
  | [m, a] => parseOne table m a
  | [m, a, b] => parseTwo table m a b
  | [m, a, b, c] => parseThree m a b c
  | _ => none

/-- One line, with or without a label in front (R100): the instruction first, as a line without a label, and only then with its
first part as the label. -/
def parseLine (table : LabelTable) (t : Text) : Option AsmLine :=
  let parts := splitParts [] (uncommented t)
  match parseParts table parts with
  | some line => some line
  | none => parseParts table (parts.drop 1)

/-- The instruction of a line of text that stands at addr. -/
def assembleText (table : LabelTable) (addr : Word) (t : Text) : Option Instr := (parseLine table t).bind (assemble addr)

end Sys2Proof.Machine
end

