-- ==== Sys2Proof/Machine/HostActions.lean ====
section
/-! DEFINITION. What the host can do to the core (spec/10_state.md R37): RESET is State.construct; START, the run loop and STEP
are here (spec/70_reset_and_hazards.md R244 to R246), and so is the status output. -/

namespace Sys2Proof.Machine

/-- The first half of START: running is set; on a faulted core nothing happens (R244). The run loop follows. -/
def State.start (s : State) : State := if s.fault.isNone then { s with running := true } else s

/-- The run loop goes on: running, and no fault (R245). -/
def State.looping (s : State) : Bool := s.running && s.fault.isNone

/-- At most k turns of the run loop (R245); a state in which it has ended stays as it is. -/
def runLoop : Nat → State → Result
  | 0, s => .next s
  | k + 1, s =>
    if s.looping then
      match step s with
      | .next t => runLoop k t
      | .fault r => .fault r
      | .refused r => .refused r
    else .next s

/-- START: the source's run(), for at most k steps (R244). -/
def hostStart (k : Nat) (s : State) : Result := runLoop k s.start

/-- STEP: one step whatever running is, nothing on a faulted core (R246). -/
def hostStep (s : State) : Result := if s.fault.isNone then step s else .next s

/-- The status outputs, running and fault (R37). -/
def State.status (s : State) : Bool × Option FaultRecord := (s.running, s.fault)

end Sys2Proof.Machine
end

