-- ==== Sys2Proof/Safety.lean ====
section
/-! DEFINITION. The terms the claims use: what an instruction keeps and what it writes, said through reads of single registers
and single words; the invariant of every state a step reaches; a safe run. -/

namespace Sys2Proof.Machine

/-- The flag says the sign of a value read as a signed number (spec/10_state.md R27). -/
def FlagSays (c : Flag) (v : Word) : Prop :=
  (c = .n ↔ v.toInt < 0) ∧ (c = .z ↔ v.toInt = 0) ∧ (c = .p ↔ 0 < v.toInt)

/-- From s to t register d was written with v and the flag set from v, every other register kept (R26, R27). -/
def RegWritten (s t : State) (d : Reg) (v : Word) : Prop :=
  t.reg d = v ∧ (∀ r, r ≠ d → t.reg r = s.reg r) ∧ FlagSays t.cond v

/-- From s to t no register was written, and so the flag is kept (R30). -/
def RegsKept (s t : State) : Prop := (∀ r, t.reg r = s.reg r) ∧ t.cond = s.cond

/-- From s to t every word of memory was kept. -/
def MemKept (s t : State) : Prop := ∀ a, t.readMem a = s.readMem a

/-- From s to t the word at a was replaced by v, every other word kept (spec/20_memory.md R52, R56). -/
def MemStored (s t : State) (a v : Word) : Prop := t.readMem a = v ∧ ∀ b, b ≠ a → t.readMem b = s.readMem b

/-- From s to t the control state but pc and cond was kept, and the two texts. -/
def StatusKept (s t : State) : Prop := t.running = s.running ∧ t.fault = s.fault ∧ t.texts = s.texts

/-- From s to t nothing but registers, flag, pc and memory can have changed: status, texts and console are kept. -/
def OutsideKept (s t : State) : Prop := StatusKept s t ∧ t.console = s.console

/-- From s to t the console completed exactly these operations. -/
def EventsAdded (s t : State) (es : List ConsoleEvent) : Prop := t.console.events = s.console.events ++ es

/-- The next n answers to writes, flushes and termination signals are all done (spec/43_trap.md R180). -/
def Console.acksDone (c : Console) (n : Nat) : Prop := ∀ k, k < n → c.ackAt k = .done

/-- The next k such answers are done and the one after them is failure (R180). -/
def Console.failsAt (c : Console) (k : Nat) : Prop := c.acksDone k ∧ c.ackAt k = .failure

/-- From s to t Fault(IoFailure) was raised for the instruction being executed in s (spec/60_exceptions.md R210, R212). -/
def IoFailureRecorded (s t : State) : Prop :=
  t.fault = some { cause := .ioFailure, word := s.readMem (s.pc - 1), address := s.pc - 1 }

/-- The register an instruction writes, where it writes one (R22). -/
def destReg : Instr → Option Reg
  | .addReg dr _ _ | .addImm dr _ _ | .andReg dr _ _ | .andImm dr _ _ | .not dr _ => some dr
  | .ld dr _ | .ldi dr _ | .ldr dr _ _ | .lea dr _ => some dr
  | .jsr _ | .jsrr _ => some 7
  | .trapGetc | .trapIn => some 0
  | .br _ _ | .jmp _ | .st _ _ | .sti _ _ | .str _ _ _ | .trapOut | .trapPuts | .trapPutsp | .trapHalt => none

/-- The instruction is one of the four that write pc (R25). -/
def writesPc : Instr → Bool
  | .br _ _ | .jmp _ | .jsr _ | .jsrr _ => true
  | .addReg _ _ _ | .addImm _ _ _ | .andReg _ _ _ | .andImm _ _ _ | .not _ _ | .ld _ _ | .ldi _ _ | .ldr _ _ _ | .lea _ _
  | .st _ _ | .sti _ _ | .str _ _ _ | .trapGetc | .trapOut | .trapPuts | .trapIn | .trapPutsp | .trapHalt => false

/-- The address an instruction stores to and the word it stores, where it stores (spec/42_loadstore.md R158 to R162). -/
def storeOf (s : State) : Instr → Option (Word × Word)
  | .st sr off => some (pcRelative s off, s.reg sr)
  | .sti sr off => some (indirect s off, s.reg sr)
  | .str sr baseR off => some (baseOffset s baseR off, s.reg sr)
  | .addReg _ _ _ | .addImm _ _ _ | .andReg _ _ _ | .andImm _ _ _ | .not _ _ | .br _ _ | .jmp _ | .jsr _ | .jsrr _
  | .ld _ _ | .ldi _ _ | .ldr _ _ _ | .lea _ _ | .trapGetc | .trapOut | .trapPuts | .trapIn | .trapPutsp | .trapHalt => none

/-- The decoder gives this cause for the word; for IoFailure, it gives a Trap (R210). -/
def causeFits (w : Word) : FaultCause → Prop
  | .unrecognizedOpcode => decode w = .error .unrecognizedOpcode
  | .unrecognizedTrapCode => decode w = .error .unrecognizedTrapCode
  | .ioFailure => ∃ i, decode w = .ok i ∧ i.isTrap = true

/-- What the fault status says is so: the recorded word stands at the recorded address, pc stands after it, and the cause is one
that the word can have (R32, R212, R213). -/
def FaultTrue (s : State) : Prop :=
  ∀ r, s.fault = some r → s.pc = r.address + 1 ∧ s.readMem r.address = r.word ∧ causeFits r.word r.cause

/-- The invariant: memory is in canonical form and the fault status is true. -/
structure State.Inv (s : State) : Prop where
  memory : Memory.wf s.mem = true
  faults : FaultTrue s

/-- A safe run: k steps, each to a state with no fault. -/
def SafeFor : Nat → State → Prop
  | 0, s => s.fault = none
  | k + 1, s => s.fault = none ∧ ∃ t, step s = .next t ∧ SafeFor k t

end Sys2Proof.Machine
end

