-- ==== Sys2Proof/Certificates/Slice0/Obligations.lean ====
section
/-! DEFINITION. The statements about the model, one for each entry of OBLIGATIONS.json. Where a statement speaks of what an
instruction does, the state before it is the one after the fetch increment (spec/00_scope.md R12), and the words "nothing else"
are spelled out as RegsKept, MemKept, StatusKept and OutsideKept of Sys2Proof/Safety.lean. -/

open Sys2Proof Sys2Proof.Machine

/-! ## Reset and the invariant -/

/-- R40: construction sets every piece of state; pc is 0x3000, running is false, fault is none, and the open parameters stand
where they belong, whatever they are. -/
def Obligations.ConstructionSetsEveryField : Prop :=
  ∀ (regs : Vector Word 8) (cond : Flag) (image : Memory) (texts : Texts) (console : Console),
    (State.construct regs cond image texts console).pc = 0x3000 ∧
    (State.construct regs cond image texts console).running = false ∧
    (State.construct regs cond image texts console).fault = none ∧
    (∀ (k : Nat) (h : k < 8), (State.construct regs cond image texts console).reg (BitVec.ofNat 3 k) = regs[k]) ∧
    (State.construct regs cond image texts console).cond = cond ∧
    (∀ a : Word, (State.construct regs cond image texts console).readMem a = Memory.read image a.toNat) ∧
    (State.construct regs cond image texts console).texts = texts ∧
    (State.construct regs cond image texts console).console = console

/-- The state after reset, and every construction with a canonical image, meets the invariant. The image of State.reset is the
model's own choice (notes/assumptions/4.md); the invariant does not rest on it beyond its canonical form. -/
def Obligations.ResetMeetsInvariant : Prop :=
  State.Inv State.reset ∧
  ∀ (regs : Vector Word 8) (cond : Flag) (image : Memory) (texts : Texts) (console : Console),
    Memory.wf image = true → State.Inv (State.construct regs cond image texts console)

/-- From every state that meets the invariant, a step gives a state that meets it: memory stays in canonical form, and a fault
status that is not none tells the word, the address and a cause that are so (R32, R212, R213). -/
def Obligations.StepKeepsInvariant : Prop :=
  ∀ s t : State, State.Inv s → step s = .next t → State.Inv t

/-! ## Encoding -/

/-- The first round-trip law of R95, for every instruction whose operands fit. -/
def Obligations.DecodeOfEncodeIsIdentity : Prop :=
  ∀ i : Instr, i.wf = true → decode (encode i) = .ok i

/-- The second round-trip law of R95, for every valid word whose ignored bits are canonical; and the encoder writes canonical
bits and never opcode 8 or 13. -/
def Obligations.EncodeOfDecodeIsIdentity : Prop :=
  (∀ (w : Word) (i : Instr), decode w = .ok i → isCanonical w = true → encode i = w) ∧
  (∀ i : Instr, isCanonical (encode i) = true ∧ opcodeOf (encode i) ≠ 8 ∧ opcodeOf (encode i) ≠ 13)

/-- R92: two words that differ only in bits that the first's opcode and mode leave unused decode alike. -/
def Obligations.IgnoredBitsDoNotMatter : Prop :=
  ∀ w v : Word, v &&& ~~~(ignoredMask w) = w &&& ~~~(ignoredMask w) → decode v = decode w

/-- R90, R91: exactly the words of opcode 8 and 13 are rejected as UnrecognizedOpcode and exactly the words of opcode 15 whose
low byte is no trap code as UnrecognizedTrapCode, and executing a rejected word is that fault. -/
def Obligations.RejectedWordsFault : Prop :=
  (∀ w : Word, decode w = .error .unrecognizedOpcode ↔
    (w.extractLsb' 12 4 = 0b1000#4 ∨ w.extractLsb' 12 4 = 0b1101#4)) ∧
  (∀ w : Word, decode w = .error .unrecognizedTrapCode ↔
    (w.extractLsb' 12 4 = 0b1111#4 ∧ ¬ (0x20#8 ≤ w.extractLsb' 0 8 ∧ w.extractLsb' 0 8 ≤ 0x25#8))) ∧
  (∀ (s : State) (c : DecodeFault), s.fault = none → decode (s.readMem s.pc) = .error c →
    ∃ t, step s = .next t ∧ t.fault = some { cause := causeOf c, word := s.readMem s.pc, address := s.pc })

/-- R76, R77, R78: the operate formats, every field at every value, and the encoder's canonical bits. -/
def Obligations.OperateFormats : Prop :=
  (∀ (d s t : BitVec 3) (x : BitVec 2),
    decode (0b0001#4 ++ d ++ s ++ 0#1 ++ x ++ t) = .ok (.addReg d s t) ∧
    decode (0b0101#4 ++ d ++ s ++ 0#1 ++ x ++ t) = .ok (.andReg d s t) ∧
    encode (.addReg d s t) = 0b0001#4 ++ d ++ s ++ 0#1 ++ 0b00#2 ++ t ∧
    encode (.andReg d s t) = 0b0101#4 ++ d ++ s ++ 0#1 ++ 0b00#2 ++ t) ∧
  (∀ (d s : BitVec 3) (i : BitVec 5),
    decode (0b0001#4 ++ d ++ s ++ 1#1 ++ i) = .ok (.addImm d s (i.signExtend 16)) ∧
    decode (0b0101#4 ++ d ++ s ++ 1#1 ++ i) = .ok (.andImm d s (i.signExtend 16))) ∧
  (∀ (d s : BitVec 3) (x : BitVec 6),
    decode (0b1001#4 ++ d ++ s ++ x) = .ok (.not d s) ∧
    encode (.not d s) = 0b1001#4 ++ d ++ s ++ 0b111111#6)

/-- R79, R80: the formats of the loads and stores, every field at every value. -/
def Obligations.LoadStoreFormats : Prop :=
  (∀ (d : BitVec 3) (o : BitVec 9),
    decode (0b0010#4 ++ d ++ o) = .ok (.ld d (o.signExtend 16)) ∧
    decode (0b1010#4 ++ d ++ o) = .ok (.ldi d (o.signExtend 16)) ∧
    decode (0b1110#4 ++ d ++ o) = .ok (.lea d (o.signExtend 16)) ∧
    decode (0b0011#4 ++ d ++ o) = .ok (.st d (o.signExtend 16)) ∧
    decode (0b1011#4 ++ d ++ o) = .ok (.sti d (o.signExtend 16))) ∧
  (∀ (d b : BitVec 3) (o : BitVec 6),
    decode (0b0110#4 ++ d ++ b ++ o) = .ok (.ldr d b (o.signExtend 16)) ∧
    decode (0b0111#4 ++ d ++ b ++ o) = .ok (.str d b (o.signExtend 16)))

/-- R81 to R84: the formats of Jump, JumpSubRoutine and Branch, every field and every ignored bit at every value. -/
def Obligations.ControlFormats : Prop :=
  (∀ (x b : BitVec 3) (y : BitVec 6),
    decode (0b1100#4 ++ x ++ b ++ y) = .ok (.jmp b) ∧ encode (.jmp b) = 0b1100#4 ++ 0b000#3 ++ b ++ 0b000000#6) ∧
  (∀ o : BitVec 11, decode (0b0100#4 ++ 1#1 ++ o) = .ok (.jsr (o.signExtend 16))) ∧
  (∀ (x : BitVec 2) (b : BitVec 3) (y : BitVec 6),
    decode (0b0100#4 ++ 0#1 ++ x ++ b ++ y) = .ok (.jsrr b) ∧
    encode (.jsrr b) = 0b0100#4 ++ 0#1 ++ 0b00#2 ++ b ++ 0b000000#6) ∧
  (∀ (n z p : BitVec 1) (o : BitVec 9), decode (0b0000#4 ++ n ++ z ++ p ++ o) = .ok (.br (n ++ z ++ p) (o.signExtend 16))) ∧
  (Flag.n.mask = 0b100#3 ∧ Flag.z.mask = 0b010#3 ∧ Flag.p.mask = 0b001#3)

/-- R85, R86: the six trap codes, whatever the four ignored bits hold; the other 250 codes are rejected; canonical words. -/
def Obligations.TrapFormats : Prop :=
  (∀ x : BitVec 4,
    decode (0b1111#4 ++ x ++ 0x20#8) = .ok .trapGetc ∧ decode (0b1111#4 ++ x ++ 0x21#8) = .ok .trapOut ∧
    decode (0b1111#4 ++ x ++ 0x22#8) = .ok .trapPuts ∧ decode (0b1111#4 ++ x ++ 0x23#8) = .ok .trapIn ∧
    decode (0b1111#4 ++ x ++ 0x24#8) = .ok .trapPutsp ∧ decode (0b1111#4 ++ x ++ 0x25#8) = .ok .trapHalt ∧
    ∀ v : BitVec 8, v ∉ [0x20#8, 0x21#8, 0x22#8, 0x23#8, 0x24#8, 0x25#8] →
      decode (0b1111#4 ++ x ++ v) = .error .unrecognizedTrapCode) ∧
  encode .trapGetc = 0xF020 ∧ encode .trapOut = 0xF021 ∧ encode .trapPuts = 0xF022 ∧ encode .trapIn = 0xF023 ∧
  encode .trapPutsp = 0xF024 ∧ encode .trapHalt = 0xF025

/-- The decoder gives only well-formed instructions (the last sentence of R87). -/
def Obligations.DecodedOperandsFit : Prop :=
  ∀ (w : Word) (i : Instr), decode w = .ok i → i.wf = true

/-- Words of spec/95_test_vectors.md 2.1 and the instructions they stand for. -/
def Obligations.DecoderVectors : Prop :=
  decode 0x0FFF = .ok (.br 0b111#3 0xFFFF) ∧ decode 0x1030 = .ok (.addImm 0 0 0xFFF0) ∧ decode 0x1018 = .ok (.addReg 0 0 0) ∧
  decode 0x4C00 = .ok (.jsr 0xFC00) ∧ decode 0x4000 = .ok (.jsrr 0) ∧ decode 0x6FFF = .ok (.ldr 7 7 0xFFFF) ∧
  decode 0xCFFF = .ok (.jmp 7) ∧ decode 0x9000 = .ok (.not 0 0) ∧ encode (.not 0 0) = 0x903F ∧
  decode 0xF125 = .ok .trapHalt ∧ decode 0xF026 = .error .unrecognizedTrapCode ∧ decode 0xD000 = .error .unrecognizedOpcode

/-- R96 for each form of line: the assembler refuses it exactly when a register number is outside 0..7, an imm5 outside -16..15, an
offset6 outside -32..31, a label's offset outside its field or a trap code not one of the six; the fields of an accepted line are
the line's own numbers; and every accepted line gives a well-formed instruction that its word decodes to. -/
def Obligations.AssemblerRefusesWhatDoesNotFit : Prop :=
  (∀ (addr : Word) (dr sr1 n : Nat),
    (assemble addr (.add dr sr1 (.reg n)) = none ↔ 7 < dr ∨ 7 < sr1 ∨ 7 < n) ∧
    ∀ i, assemble addr (.add dr sr1 (.reg n)) = some i →
      ∃ d a b : Reg, i = .addReg d a b ∧ d.toNat = dr ∧ a.toNat = sr1 ∧ b.toNat = n) ∧
  (∀ (addr : Word) (dr sr1 : Nat) (v : Int),
    (assemble addr (.add dr sr1 (.num v)) = none ↔ 7 < dr ∨ 7 < sr1 ∨ v < -16 ∨ 15 < v) ∧
    ∀ i, assemble addr (.add dr sr1 (.num v)) = some i →
      ∃ (d a : Reg) (w : Word), i = .addImm d a w ∧ d.toNat = dr ∧ a.toNat = sr1 ∧ w.toInt = v) ∧
  (∀ (addr : Word) (dr sr1 n : Nat),
    (assemble addr (.and dr sr1 (.reg n)) = none ↔ 7 < dr ∨ 7 < sr1 ∨ 7 < n) ∧
    ∀ i, assemble addr (.and dr sr1 (.reg n)) = some i →
      ∃ d a b : Reg, i = .andReg d a b ∧ d.toNat = dr ∧ a.toNat = sr1 ∧ b.toNat = n) ∧
  (∀ (addr : Word) (dr sr1 : Nat) (v : Int),
    (assemble addr (.and dr sr1 (.num v)) = none ↔ 7 < dr ∨ 7 < sr1 ∨ v < -16 ∨ 15 < v) ∧
    ∀ i, assemble addr (.and dr sr1 (.num v)) = some i →
      ∃ (d a : Reg) (w : Word), i = .andImm d a w ∧ d.toNat = dr ∧ a.toNat = sr1 ∧ w.toInt = v) ∧
  (∀ (addr : Word) (dr sr : Nat),
    (assemble addr (.not dr sr) = none ↔ 7 < dr ∨ 7 < sr) ∧
    ∀ i, assemble addr (.not dr sr) = some i → ∃ d a : Reg, i = .not d a ∧ d.toNat = dr ∧ a.toNat = sr) ∧
  (∀ (addr : Word) (b : Nat),
    (assemble addr (.jmp b) = none ↔ 7 < b) ∧
    ∀ i, assemble addr (.jmp b) = some i → ∃ r : Reg, i = .jmp r ∧ r.toNat = b) ∧
  (∀ (addr : Word) (b : Nat),
    (assemble addr (.jsrr b) = none ↔ 7 < b) ∧
    ∀ i, assemble addr (.jsrr b) = some i → ∃ r : Reg, i = .jsrr r ∧ r.toNat = b) ∧
  (∀ (addr : Word) (r b : Nat) (v : Int),
    (assemble addr (.ldr r b v) = none ↔ 7 < r ∨ 7 < b ∨ v < -32 ∨ 31 < v) ∧
    ∀ i, assemble addr (.ldr r b v) = some i →
      ∃ (d a : Reg) (w : Word), i = .ldr d a w ∧ d.toNat = r ∧ a.toNat = b ∧ w.toInt = v) ∧
  (∀ (addr : Word) (r b : Nat) (v : Int),
    (assemble addr (.str r b v) = none ↔ 7 < r ∨ 7 < b ∨ v < -32 ∨ 31 < v) ∧
    ∀ i, assemble addr (.str r b v) = some i →
      ∃ (d a : Reg) (w : Word), i = .str d a w ∧ d.toNat = r ∧ a.toNat = b ∧ w.toInt = v) ∧
  (∀ (addr label : Word) (r : Nat) (line : AsmLine) (make : Reg → Word → Instr),
    (line, make) ∈ [(AsmLine.ld r label, Instr.ld), (AsmLine.ldi r label, Instr.ldi), (AsmLine.lea r label, Instr.lea),
      (AsmLine.st r label, Instr.st), (AsmLine.sti r label, Instr.sti)] →
    (assemble addr line = none ↔
      7 < r ∨ (label - (addr + 1)).toInt < -256 ∨ 255 < (label - (addr + 1)).toInt) ∧
    ∀ i, assemble addr line = some i → ∃ d : Reg, i = make d (label - (addr + 1)) ∧ d.toNat = r) ∧
  (∀ (addr label : Word) (n z p : Bool),
    (assemble addr (.br n z p label) = none ↔
      (label - (addr + 1)).toInt < -256 ∨ 255 < (label - (addr + 1)).toInt) ∧
    (assemble addr (.jsr label) = none ↔
      (label - (addr + 1)).toInt < -1024 ∨ 1023 < (label - (addr + 1)).toInt)) ∧
  (∀ (addr : Word) (code : Nat), assemble addr (.trap code) = none ↔ code < 0x20 ∨ 0x25 < code) ∧
  (∀ (addr : Word) (line : AsmLine) (i : Instr), assemble addr line = some i → i.wf = true ∧ decode (encode i) = .ok i)

/-- R101: the aliases stand for the words the spec gives them. -/
def Obligations.AliasesExpand : Prop :=
  ∀ addr : Word,
    (assemble addr .ret = assemble addr (.jmp 7) ∧ (assemble addr .ret).map encode = some 0xC1C0) ∧
    assemble addr .getc = assemble addr (.trap 0x20) ∧ assemble addr .out = assemble addr (.trap 0x21) ∧
    assemble addr .puts = assemble addr (.trap 0x22) ∧ assemble addr .inn = assemble addr (.trap 0x23) ∧
    assemble addr .putsp = assemble addr (.trap 0x24) ∧ assemble addr .halt = assemble addr (.trap 0x25) ∧
    (∀ label, assemble addr (.br false false false label) = assemble addr (.br true true true label)) ∧
    (assemble addr .nop).map encode = some 0x0000

/-- R102: a label operand becomes the offset from the next word, which must fit, so that the instruction at addr reaches the
label: the incremented pc plus the offset is the label. -/
def Obligations.LabelsBecomeOffsets : Prop :=
  ∀ (addr label : Word),
    (∀ n z p i, assemble addr (.br n z p label) = some i ↔ ∃ o, (addr + 1) + o = label ∧ -256 ≤ o.toInt ∧ o.toInt ≤ 255 ∧
      i = .br (asmMask n z p) o) ∧
    (∀ i, assemble addr (.jsr label) = some i ↔ ∃ o, (addr + 1) + o = label ∧ -1024 ≤ o.toInt ∧ o.toInt ≤ 1023 ∧ i = .jsr o) ∧
    (∀ (r : Reg) (i : Instr) (line : AsmLine) (make : Word → Instr),
      (line, make) ∈ [(AsmLine.ld r.toNat label, Instr.ld r), (AsmLine.ldi r.toNat label, Instr.ldi r),
        (AsmLine.lea r.toNat label, Instr.lea r), (AsmLine.st r.toNat label, Instr.st r),
        (AsmLine.sti r.toNat label, Instr.sti r)] →
      (assemble addr line = some i ↔ ∃ o, (addr + 1) + o = label ∧ -256 ≤ o.toInt ∧ o.toInt ≤ 255 ∧ i = make o))

/-- Lines of assembly in the forms of R100 (with a label and a comment), R101 and R104, standing at 0x3000 with END at 0x3005,
and lines that are refused: each list of characters is the line's text. -/
def Obligations.AssemblyTextIsRead : Prop :=
  ∀ table : LabelTable, table = [(['E', 'N', 'D'], 0x3005)] →
    assembleText table 0x3000 ['A', 'D', 'D', ' ', 'R', '3', ',', ' ', 'R', '1', ',', ' ', 'R', '2'] = some (.addReg 3 1 2) ∧
    assembleText table 0x3000 ['A', 'N', 'D', ' ', 'R', '5', ',', ' ', 'R', '6', ',', ' ', '#', '-', '1',
      '6'] = some (.andImm 5 6 0xFFF0) ∧
    assembleText table 0x3000 ['L', 'O', 'O', 'P', ' ', 'A', 'D', 'D', ' ', 'R', '0', ',', ' ', 'R', '0', ',', ' ', 'x', '3',
      ' ', ';', ' ', 't', 'h', 'r', 'e', 'e'] = some (.addImm 0 0 3) ∧
    assembleText table 0x3000 ['N', 'O', 'T', ' ', 'R', '4', ',', ' ', 'R', '5'] = some (.not 4 5) ∧
    assembleText table 0x3000 ['B', 'R', 'z', 'p', ' ', 'E', 'N', 'D'] = some (.br 0b011#3 4) ∧
    assembleText table 0x3000 ['B', 'R', ' ', 'E', 'N', 'D'] = some (.br 0b111#3 4) ∧
    assembleText table 0x3000 ['J', 'M', 'P', ' ', 'R', '6'] = some (.jmp 6) ∧
    assembleText table 0x3000 ['R', 'E', 'T'] = some (.jmp 7) ∧
    assembleText table 0x3000 ['J', 'S', 'R', ' ', 'E', 'N', 'D'] = some (.jsr 4) ∧
    assembleText table 0x3000 ['J', 'S', 'R', 'R', ' ', 'R', '3'] = some (.jsrr 3) ∧
    assembleText table 0x3000 ['L', 'D', 'I', ' ', 'R', '3', ',', ' ', 'E', 'N', 'D'] = some (.ldi 3 4) ∧
    assembleText table 0x3000 ['L', 'D', 'R', ' ', 'R', '3', ',', ' ', 'R', '4', ',', ' ', '#', '-', '3',
      '2'] = some (.ldr 3 4 0xFFE0) ∧
    assembleText table 0x3000 ['S', 'T', 'R', ' ', 'R', '2', ',', ' ', 'R', '3', ',', ' ', '#', '3', '1'] = some (.str 2 3 31) ∧
    assembleText table 0x3000 ['S', 'T', 'I', ' ', 'R', '0', ',', ' ', 'E', 'N', 'D'] = some (.sti 0 4) ∧
    assembleText table 0x3000 ['T', 'R', 'A', 'P', ' ', 'x', '2', '5'] = some (.trapHalt) ∧
    assembleText table 0x3000 ['P', 'U', 'T', 'S', 'P'] = some (.trapPutsp) ∧
    assembleText table 0x3000 ['A', 'D', 'D', ' ', 'R', '8', ',', ' ', 'R', '0', ',', ' ', 'R', '0'] = none ∧
    assembleText table 0x3000 ['A', 'N', 'D', ' ', 'R', '0', ',', ' ', 'R', '0', ',', ' ', '#', '1', '6'] = none ∧
    assembleText table 0x3000 ['T', 'R', 'A', 'P', ' ', 'x', '2', '6'] = none ∧
    assembleText table 0x3000 ['L', 'D', ' ', 'R', '0', ',', ' ', 'N', 'O', 'N', 'E'] = none

/-! ## The step, faults, and the host -/

/-- R247: with no fault recorded, a step fetches the word at pc, increments pc and runs exactly the instruction the word decodes
to, or records the decode fault with the word and its address. -/
def Obligations.StepRunsTheDecodedInstruction : Prop :=
  ∀ s : State, s.fault = none →
    (∀ i, decode (s.readMem s.pc) = .ok i → step s = exec i { s with pc := s.pc + 1 }) ∧
    (∀ c, decode (s.readMem s.pc) = .error c →
      step s = .next { s with pc := s.pc + 1, fault := some { cause := causeOf c, word := s.readMem s.pc, address := s.pc } })

/-- R211 and the decode half of R212: the step of a rejected word completes in the faulted state, where pc keeps the increment
and nothing but pc and fault has changed. -/
def Obligations.DecodeFaultChangesNothingElse : Prop :=
  ∀ (s : State) (c : DecodeFault), s.fault = none → decode (s.readMem s.pc) = .error c →
    ∃ t, step s = .next t ∧ t.fault = some { cause := causeOf c, word := s.readMem s.pc, address := s.pc } ∧
      t.pc = s.pc + 1 ∧ RegsKept s t ∧ MemKept s t ∧ t.running = s.running ∧ t.texts = s.texts ∧ t.console = s.console

/-- The last sentence of R212: a core whose fault is not none takes no further step, and neither STEP nor START moves it. That
step itself answers the named fault coreFaulted is the model's choice (notes/assumptions/11.md). -/
def Obligations.FaultedCoreTakesNoStep : Prop :=
  ∀ (s : State) (r : FaultRecord), s.fault = some r →
    step s = .fault (.coreFaulted r) ∧ hostStep s = .next s ∧ ∀ k, hostStart k s = .next s

/-- R210: what a step that ends in a fault records, and which fetched words can end in which cause. -/
def Obligations.FaultCausesAreExact : Prop :=
  (∀ (s t : State) (r : FaultRecord), s.fault = none → step s = .next t → t.fault = some r →
    r.word = s.readMem s.pc ∧ r.address = s.pc ∧
    (r.cause = .unrecognizedOpcode ↔ ((r.word.extractLsb' 12 4).toNat = 8 ∨ (r.word.extractLsb' 12 4).toNat = 13)) ∧
    (r.cause = .unrecognizedTrapCode ↔ ((r.word.extractLsb' 12 4).toNat = 15 ∧
      ((r.word.extractLsb' 0 8).toNat < 0x20 ∨ 0x25 < (r.word.extractLsb' 0 8).toNat))) ∧
    (r.cause = .ioFailure ↔ ∃ i, i.isTrap = true ∧ decode r.word = .ok i)) ∧
  FaultCause.unrecognizedOpcode.code = 1 ∧ FaultCause.unrecognizedTrapCode.code = 2 ∧ FaultCause.ioFailure.code = 3

/-- R244: START sets running, changes nothing else, and runs the loop from pc; on a faulted core it does nothing. -/
def Obligations.StartSetsRunning : Prop :=
  ∀ s : State,
    (s.fault = none → ∀ k, hostStart k s = runLoop k { s with running := true }) ∧
    (s.fault ≠ none → ∀ k, hostStart k s = .next s)

/-- R245: the loop performs a step while running holds and fault is none; a step after which it does not go on executed Halt or
raised a fault; and where it does not go on, nothing changes. -/
def Obligations.LoopEndsOnlyByHaltOrFault : Prop :=
  (∀ s t : State, s.running = true → s.fault = none → step s = .next t →
    (∀ k, runLoop (k + 1) s = runLoop k t) ∧
    (t.looping = false → decode (s.readMem s.pc) = .ok .trapHalt ∨ t.fault ≠ none)) ∧
  (∀ (s : State) (k : Nat), s.running = false ∨ s.fault ≠ none → runLoop k s = .next s)

/-- The run loop's bound only cuts a run short: m turns and then n turns are m + n turns (R245). -/
def Obligations.RunLoopComposes : Prop :=
  ∀ (m n : Nat) (s : State),
    runLoop (m + n) s = match runLoop m s with
      | .next t => runLoop n t
      | .fault r => .fault r
      | .refused r => .refused r

/-- R246, on a core with no fault: the host's STEP performs one step, whatever running is. And no step reads running (R31): two
states that differ only in running step alike, but for running itself. -/
def Obligations.StepDoesNotReadRunning : Prop :=
  (∀ (s : State) (b : Bool), s.fault = none →
    hostStep s = step s ∧ hostStep { s with running := b } = step { s with running := b }) ∧
  (∀ (s : State) (b : Bool),
    (∀ t, step s = .next t → ∃ u, step { s with running := b } = .next u ∧ { u with running := t.running } = t ∧
      (u.running = b ∨ u.running = false)) ∧
    (∀ f, step s = .fault f → step { s with running := b } = .fault f))

/-- R29: the only reader of cond is Branch: every other instruction does the same whatever cond holds, but for cond itself; and
Branch copies it neither to a register nor to memory. -/
def Obligations.OnlyBranchReadsCond : Prop :=
  (∀ (i : Instr) (s : State) (c : Flag), (∀ m o, i ≠ .br m o) →
    (∀ t, exec i s = .next t → ∃ u, exec i { s with cond := c } = .next u ∧ { u with cond := t.cond } = t) ∧
    (∀ f, exec i s = .fault f → exec i { s with cond := c } = .fault f)) ∧
  (∀ (m : BitVec 3) (o : Word) (s : State) (c : Flag), ∃ t u,
    exec (.br m o) s = .next t ∧ exec (.br m o) { s with cond := c } = .next u ∧
    (∀ r, u.reg r = t.reg r) ∧ (∀ a, u.readMem a = t.readMem a) ∧ u.console = t.console)

/-! ## Operate -/

/-- R111. -/
def Obligations.AddRegisterResult : Prop :=
  ∀ (s : State) (dr sr1 sr2 : Reg) (x : BitVec 2),
    decode (0b0001#4 ++ dr ++ sr1 ++ 0#1 ++ x ++ sr2) = .ok (.addReg dr sr1 sr2) ∧
    ∃ t, exec (.addReg dr sr1 sr2) s = .next t ∧
      RegWritten s t dr (BitVec.ofNat 16 ((s.reg sr1).toNat + (s.reg sr2).toNat)) ∧ t.pc = s.pc ∧ MemKept s t ∧ OutsideKept s t

/-- R112. -/
def Obligations.AddImmediateResult : Prop :=
  ∀ (s : State) (dr sr1 : Reg) (imm5 : BitVec 5),
    decode (0b0001#4 ++ dr ++ sr1 ++ 1#1 ++ imm5) = .ok (.addImm dr sr1 (imm5.signExtend 16)) ∧
    ∃ t, exec (.addImm dr sr1 (imm5.signExtend 16)) s = .next t ∧
      RegWritten s t dr (BitVec.ofInt 16 ((s.reg sr1).toInt + imm5.toInt)) ∧ t.pc = s.pc ∧ MemKept s t ∧ OutsideKept s t

/-- R113. -/
def Obligations.AndRegisterResult : Prop :=
  ∀ (s : State) (dr sr1 sr2 : Reg) (x : BitVec 2),
    decode (0b0101#4 ++ dr ++ sr1 ++ 0#1 ++ x ++ sr2) = .ok (.andReg dr sr1 sr2) ∧
    ∃ t, exec (.andReg dr sr1 sr2) s = .next t ∧ RegWritten s t dr (s.reg sr1 &&& s.reg sr2) ∧ t.pc = s.pc ∧
      MemKept s t ∧ OutsideKept s t

/-- R114. -/
def Obligations.AndImmediateResult : Prop :=
  ∀ (s : State) (dr sr1 : Reg) (imm5 : BitVec 5),
    decode (0b0101#4 ++ dr ++ sr1 ++ 1#1 ++ imm5) = .ok (.andImm dr sr1 (imm5.signExtend 16)) ∧
    ∃ t, exec (.andImm dr sr1 (imm5.signExtend 16)) s = .next t ∧ RegWritten s t dr (s.reg sr1 &&& imm5.signExtend 16) ∧
      t.pc = s.pc ∧ MemKept s t ∧ OutsideKept s t

/-- R115. -/
def Obligations.NotResult : Prop :=
  ∀ (s : State) (dr sr : Reg) (x : BitVec 6),
    decode (0b1001#4 ++ dr ++ sr ++ x) = .ok (.not dr sr) ∧
    ∃ t, exec (.not dr sr) s = .next t ∧ RegWritten s t dr (~~~(s.reg sr)) ∧ t.pc = s.pc ∧ MemKept s t ∧ OutsideKept s t

/-- R117: NOT, ADD #1, ADD is subtraction: run on registers d ≠ a, it leaves a - b in d with the flag of the wrapped
difference, and a is kept. -/
def Obligations.SubtractIdiom : Prop :=
  ∀ (s : State) (d a b : Reg), d ≠ a →
    ∃ t u v, exec (.not d b) s = .next t ∧ exec (.addImm d d 1) t = .next u ∧ exec (.addReg d a d) u = .next v ∧
      RegWritten s v d (s.reg a - s.reg b) ∧ MemKept s v ∧ OutsideKept s v

/-! ## Control -/

/-- R132: pc moves by the offset exactly when the held flag's bit of the mask is set, and nothing else changes. -/
def Obligations.BranchResult : Prop :=
  ∀ (s : State) (nzp : BitVec 3) (offset9 : BitVec 9),
    decode (0b0000#4 ++ nzp ++ offset9) = .ok (.br nzp (offset9.signExtend 16)) ∧
    ∃ t, exec (.br nzp (offset9.signExtend 16)) s = .next t ∧
      t.pc = (if (s.cond = .n ∧ nzp.getLsbD 2 = true) ∨ (s.cond = .z ∧ nzp.getLsbD 1 = true) ∨
        (s.cond = .p ∧ nzp.getLsbD 0 = true) then s.pc + offset9.signExtend 16 else s.pc) ∧
      RegsKept s t ∧ MemKept s t ∧ OutsideKept s t

/-- R94: mask 0b000 is never taken and changes nothing, in particular the word 0x0000 only advances pc; mask 0b111 is always
taken. -/
def Obligations.BranchMaskExtremes : Prop :=
  (∀ (s : State) (off : Word), exec (.br 0b000#3 off) s = .next s) ∧
  (∀ s : State, s.fault = none → s.readMem s.pc = 0x0000 → step s = .next { s with pc := s.pc + 1 }) ∧
  (∀ (s : State) (off : Word), exec (.br 0b111#3 off) s = .next { s with pc := s.pc + off })

/-- R134. -/
def Obligations.JumpResult : Prop :=
  ∀ (s : State) (baseR : Reg) (x : BitVec 3) (y : BitVec 6),
    decode (0b1100#4 ++ x ++ baseR ++ y) = .ok (.jmp baseR) ∧
    ∃ t, exec (.jmp baseR) s = .next t ∧ t.pc = s.reg baseR ∧ RegsKept s t ∧ MemKept s t ∧ OutsideKept s t

/-- R136. -/
def Obligations.JumpSubRoutineOffsetResult : Prop :=
  ∀ (s : State) (offset11 : BitVec 11),
    decode (0b0100#4 ++ 1#1 ++ offset11) = .ok (.jsr (offset11.signExtend 16)) ∧
    ∃ t, exec (.jsr (offset11.signExtend 16)) s = .next t ∧ t.pc = s.pc + offset11.signExtend 16 ∧ RegWritten s t 7 s.pc ∧
      MemKept s t ∧ OutsideKept s t

/-- R138: the base register is read after the link write, so JSRR R7 goes on at the next word. -/
def Obligations.JumpSubRoutineRegisterResult : Prop :=
  ∀ (s : State) (baseR : Reg) (x : BitVec 2) (y : BitVec 6),
    decode (0b0100#4 ++ 0#1 ++ x ++ baseR ++ y) = .ok (.jsrr baseR) ∧
    ∃ t, exec (.jsrr baseR) s = .next t ∧ t.pc = (if baseR = 7 then s.pc else s.reg baseR) ∧ RegWritten s t 7 s.pc ∧
      MemKept s t ∧ OutsideKept s t

/-- R140: what JSR or JSRR leaves in R7 takes JMP R7 back to the word after the call, whatever ran between, as long as R7 is as
the call left it. -/
def Obligations.ReturnGoesAfterTheCall : Prop :=
  ∀ (s t u : State) (i : Instr), ((∃ off, i = .jsr off) ∨ ∃ b, i = .jsrr b) → exec i s = .next t → u.reg 7 = t.reg 7 →
    ∃ v, exec (.jmp 7) u = .next v ∧ v.pc = s.pc

/-! ## Loads and stores -/

/-- R150. -/
def Obligations.LoadResult : Prop :=
  ∀ (s : State) (dr : Reg) (offset9 : BitVec 9),
    decode (0b0010#4 ++ dr ++ offset9) = .ok (.ld dr (offset9.signExtend 16)) ∧
    ∃ t, exec (.ld dr (offset9.signExtend 16)) s = .next t ∧ RegWritten s t dr (s.readMem (s.pc + offset9.signExtend 16)) ∧
      t.pc = s.pc ∧ MemKept s t ∧ OutsideKept s t

/-- R152. -/
def Obligations.LoadIndirectResult : Prop :=
  ∀ (s : State) (dr : Reg) (offset9 : BitVec 9),
    decode (0b1010#4 ++ dr ++ offset9) = .ok (.ldi dr (offset9.signExtend 16)) ∧
    ∃ t, exec (.ldi dr (offset9.signExtend 16)) s = .next t ∧
      RegWritten s t dr (s.readMem (s.readMem (s.pc + offset9.signExtend 16))) ∧ t.pc = s.pc ∧ MemKept s t ∧ OutsideKept s t

/-- R154. -/
def Obligations.LoadBaseOffsetResult : Prop :=
  ∀ (s : State) (dr baseR : Reg) (offset6 : BitVec 6),
    decode (0b0110#4 ++ dr ++ baseR ++ offset6) = .ok (.ldr dr baseR (offset6.signExtend 16)) ∧
    ∃ t, exec (.ldr dr baseR (offset6.signExtend 16)) s = .next t ∧
      RegWritten s t dr (s.readMem (s.reg baseR + offset6.signExtend 16)) ∧ t.pc = s.pc ∧ MemKept s t ∧ OutsideKept s t

/-- R156. -/
def Obligations.LoadEffectiveAddressResult : Prop :=
  ∀ (s : State) (dr : Reg) (offset9 : BitVec 9),
    decode (0b1110#4 ++ dr ++ offset9) = .ok (.lea dr (offset9.signExtend 16)) ∧
    ∃ t, exec (.lea dr (offset9.signExtend 16)) s = .next t ∧ RegWritten s t dr (s.pc + offset9.signExtend 16) ∧
      t.pc = s.pc ∧ MemKept s t ∧ OutsideKept s t

/-- R158: the word at pc + offset9 is replaced, and nothing else changes. Memory is in canonical form, which every step keeps. -/
def Obligations.StoreResult : Prop :=
  ∀ (s : State) (sr : Reg) (offset9 : BitVec 9), Memory.wf s.mem = true →
    decode (0b0011#4 ++ sr ++ offset9) = .ok (.st sr (offset9.signExtend 16)) ∧
    ∃ t, exec (.st sr (offset9.signExtend 16)) s = .next t ∧ MemStored s t (s.pc + offset9.signExtend 16) (s.reg sr) ∧
      RegsKept s t ∧ t.pc = s.pc ∧ OutsideKept s t

/-- R160: the word at the address that the word at pc + offset9 held before the store is replaced, and nothing else changes. -/
def Obligations.StoreIndirectResult : Prop :=
  ∀ (s : State) (sr : Reg) (offset9 : BitVec 9), Memory.wf s.mem = true →
    decode (0b1011#4 ++ sr ++ offset9) = .ok (.sti sr (offset9.signExtend 16)) ∧
    ∃ t, exec (.sti sr (offset9.signExtend 16)) s = .next t ∧
      MemStored s t (s.readMem (s.pc + offset9.signExtend 16)) (s.reg sr) ∧ RegsKept s t ∧ t.pc = s.pc ∧ OutsideKept s t

/-- R162: the word at base + offset6 is replaced, and nothing else changes. -/
def Obligations.StoreBaseOffsetResult : Prop :=
  ∀ (s : State) (sr baseR : Reg) (offset6 : BitVec 6), Memory.wf s.mem = true →
    decode (0b0111#4 ++ sr ++ baseR ++ offset6) = .ok (.str sr baseR (offset6.signExtend 16)) ∧
    ∃ t, exec (.str sr baseR (offset6.signExtend 16)) s = .next t ∧
      MemStored s t (s.reg baseR + offset6.signExtend 16) (s.reg sr) ∧ RegsKept s t ∧ t.pc = s.pc ∧ OutsideKept s t

/-- R62: a step that stores to an address makes the next fetch from there read the stored word: where the stores of ST, STI or
STR hit the word pc goes to, the next step runs the instruction stored. -/
def Obligations.StoreIsSeenByTheNextFetch : Prop :=
  ∀ (s t : State) (i j : Instr) (v : Word), Memory.wf s.mem = true → s.fault = none → decode (s.readMem s.pc) = .ok i →
    storeOf s.advance i = some (s.pc + 1, v) → decode v = .ok j → step s = .next t →
    step t = exec j { t with pc := t.pc + 1 }

/-! ## Traps -/

/-- R182: GetC takes the console's byte into R0, zero-extended, with its flag; on failure it raises IoFailure with nothing else
done; and while the console does not answer the core holds, which the model names consoleHold (notes/assumptions/7.md). -/
def Obligations.GetCReadsOneByte : Prop :=
  ∀ s : State,
    (∀ x : BitVec 4, decode (0b1111#4 ++ x ++ 0x20#8) = .ok .trapGetc) ∧
    (∀ b, s.console.nextRead = some (.byte b) → ∃ t, exec .trapGetc s = .next t ∧ RegWritten s t 0 (b.setWidth 16) ∧
      t.cond ≠ .n ∧ t.pc = s.pc ∧ MemKept s t ∧ StatusKept s t ∧ t.console = s.console.popRead.log (.read b) ∧
      EventsAdded s t [.read b]) ∧
    (s.console.nextRead = some .failure → ∃ t, exec .trapGetc s = .next t ∧ IoFailureRecorded s t ∧ RegsKept s t ∧
      t.pc = s.pc ∧ MemKept s t ∧ t.running = s.running ∧ t.texts = s.texts ∧ EventsAdded s t []) ∧
    (s.console.nextRead = none → exec .trapGetc s = .fault .consoleHold)

/-- R183, with R180 for the failures: In prints the prompt, reads one byte into R0 without echo, and flushes; a failing
operation raises IoFailure there, with the operations before it done and those after it not. A read that is never answered after
the prompt holds the core, which the model names consoleHold (notes/assumptions/7.md). -/
def Obligations.InPromptsReadsAndFlushes : Prop :=
  ∀ s : State,
    (∀ x : BitVec 4, decode (0b1111#4 ++ x ++ 0x23#8) = .ok .trapIn) ∧
    (∀ b, s.console.nextRead = some (.byte b) → s.console.acksDone (s.texts.inPrompt.length + 1) →
      ∃ t, exec .trapIn s = .next t ∧ RegWritten s t 0 (b.setWidth 16) ∧ t.cond ≠ .n ∧ t.pc = s.pc ∧ MemKept s t ∧
        StatusKept s t ∧ EventsAdded s t (s.texts.inPrompt.map .write ++ [.read b, .flush])) ∧
    (∀ k, k < s.texts.inPrompt.length → s.console.failsAt k →
      ∃ t, exec .trapIn s = .next t ∧ IoFailureRecorded s t ∧ RegsKept s t ∧ t.pc = s.pc ∧ MemKept s t ∧
        t.running = s.running ∧ EventsAdded s t ((s.texts.inPrompt.map .write).take k)) ∧
    (s.console.nextRead = some .failure → s.console.acksDone s.texts.inPrompt.length →
      ∃ t, exec .trapIn s = .next t ∧ IoFailureRecorded s t ∧ RegsKept s t ∧ t.pc = s.pc ∧ MemKept s t ∧
        t.running = s.running ∧ EventsAdded s t (s.texts.inPrompt.map .write)) ∧
    (∀ b, s.console.nextRead = some (.byte b) → s.console.failsAt s.texts.inPrompt.length →
      ∃ t, exec .trapIn s = .next t ∧ IoFailureRecorded s t ∧ RegWritten s t 0 (b.setWidth 16) ∧ t.pc = s.pc ∧ MemKept s t ∧
        t.running = s.running ∧ EventsAdded s t (s.texts.inPrompt.map .write ++ [.read b])) ∧
    (s.console.nextRead = none → s.console.acksDone s.texts.inPrompt.length → exec .trapIn s = .fault .consoleHold)

/-- R184, with R180 for the failures: Out writes the low byte of R0 and flushes. -/
def Obligations.OutWritesTheLowByte : Prop :=
  ∀ s : State,
    (∀ x : BitVec 4, decode (0b1111#4 ++ x ++ 0x21#8) = .ok .trapOut) ∧
    (s.console.acksDone 2 → ∃ t, exec .trapOut s = .next t ∧ RegsKept s t ∧ t.pc = s.pc ∧ MemKept s t ∧ StatusKept s t ∧
      EventsAdded s t [.write (BitVec.ofNat 8 ((s.reg 0).toNat % 256)), .flush]) ∧
    (∀ k, k < 2 → s.console.failsAt k → ∃ t, exec .trapOut s = .next t ∧ IoFailureRecorded s t ∧ RegsKept s t ∧
      t.pc = s.pc ∧ MemKept s t ∧ t.running = s.running ∧
      EventsAdded s t ([ConsoleEvent.write (BitVec.ofNat 8 ((s.reg 0).toNat % 256)), .flush].take k))

/-- R186, with R180 for the failures: with n nonzero words from x[0] on and then a zero word, Puts writes the low byte of each,
in order, and flushes; R0 is not changed. Where R192 lets a claim rely on no output (a word with a zero low byte, a string across
0xFFFF) this is the model's reading of R186 (notes/assumptions/18.md). -/
def Obligations.PutsWritesLowBytesToTheZeroWord : Prop :=
  (∀ x : BitVec 4, decode (0b1111#4 ++ x ++ 0x22#8) = .ok .trapPuts) ∧
  (∀ (s : State) (n : Nat), n < 65536 → (∀ k, k < n → s.readMem (s.reg 0 + BitVec.ofNat 16 k) ≠ 0) →
    s.readMem (s.reg 0 + BitVec.ofNat 16 n) = 0 →
    (s.console.acksDone (n + 1) → ∃ t, exec .trapPuts s = .next t ∧ RegsKept s t ∧ t.pc = s.pc ∧ MemKept s t ∧
      StatusKept s t ∧
      EventsAdded s t (((List.range n).map fun k =>
        ConsoleEvent.write ((s.readMem (s.reg 0 + BitVec.ofNat 16 k)).extractLsb' 0 8)) ++ [.flush])) ∧
    (∀ j, j ≤ n → s.console.failsAt j → ∃ t, exec .trapPuts s = .next t ∧ IoFailureRecorded s t ∧ RegsKept s t ∧
      t.pc = s.pc ∧ MemKept s t ∧ t.running = s.running ∧
      EventsAdded s t ((List.range j).map fun k =>
        ConsoleEvent.write ((s.readMem (s.reg 0 + BitVec.ofNat 16 k)).extractLsb' 0 8)))) ∧
  (∀ s t : State, (∀ a, s.readMem a ≠ 0) → exec .trapPuts s = .next t → IoFailureRecorded s t)

/-- R188, with R180 for the failures: as Puts, but each word gives its low byte and then its high byte unless that is zero.
Where R192 lets a claim rely on no output this is the model's reading of R188 (notes/assumptions/18.md). -/
def Obligations.PutsPWritesPackedBytes : Prop :=
  (∀ x : BitVec 4, decode (0b1111#4 ++ x ++ 0x24#8) = .ok .trapPutsp) ∧
  (∀ (s : State) (n : Nat) (es : List ConsoleEvent), n < 65536 →
    (∀ k, k < n → s.readMem (s.reg 0 + BitVec.ofNat 16 k) ≠ 0) → s.readMem (s.reg 0 + BitVec.ofNat 16 n) = 0 →
    es = ((List.range n).map fun k =>
      if (s.readMem (s.reg 0 + BitVec.ofNat 16 k)).toNat / 256 = 0
      then [ConsoleEvent.write ((s.readMem (s.reg 0 + BitVec.ofNat 16 k)).extractLsb' 0 8)]
      else [ConsoleEvent.write ((s.readMem (s.reg 0 + BitVec.ofNat 16 k)).extractLsb' 0 8),
        ConsoleEvent.write ((s.readMem (s.reg 0 + BitVec.ofNat 16 k)).extractLsb' 8 8)]).flatten ++ [.flush] →
    (s.console.acksDone es.length → ∃ t, exec .trapPutsp s = .next t ∧ RegsKept s t ∧ t.pc = s.pc ∧ MemKept s t ∧
      StatusKept s t ∧ EventsAdded s t es) ∧
    (∀ j, j < es.length → s.console.failsAt j → ∃ t, exec .trapPutsp s = .next t ∧ IoFailureRecorded s t ∧ RegsKept s t ∧
      t.pc = s.pc ∧ MemKept s t ∧ t.running = s.running ∧ EventsAdded s t (es.take j))) ∧
  (∀ s t : State, (∀ a, s.readMem a ≠ 0) → exec .trapPutsp s = .next t → IoFailureRecorded s t)

/-- R186 and R188 with no zero word in memory, R180 for the failures: if no write ever fails, the string traps never complete, which
the model names stringNeverEnds (notes/assumptions/8.md); if the write after k of them is the first to fail, however far it is,
they end there with IoFailure, after exactly those k writes, and nothing else has changed. -/
def Obligations.StringWithoutZeroWordNeverCompletes : Prop :=
  ∀ s : State, (∀ a, s.readMem a ≠ 0) →
    ((∀ n, s.console.acksDone n) →
      exec .trapPuts s = .fault .stringNeverEnds ∧ exec .trapPutsp s = .fault .stringNeverEnds) ∧
    (∀ k, s.console.failsAt k →
      (∃ t, exec .trapPuts s = .next t ∧ IoFailureRecorded s t ∧ RegsKept s t ∧ t.pc = s.pc ∧
        MemKept s t ∧ t.running = s.running ∧ t.texts = s.texts ∧
        EventsAdded s t ((List.range k).map fun j =>
          ConsoleEvent.write ((s.readMem (s.reg 0 + BitVec.ofNat 16 j)).extractLsb' 0 8))) ∧
      (∃ t, exec .trapPutsp s = .next t ∧ IoFailureRecorded s t ∧ RegsKept s t ∧ t.pc = s.pc ∧
        MemKept s t ∧ t.running = s.running ∧ t.texts = s.texts ∧
        EventsAdded s t (((List.range k).map fun j =>
          if (s.readMem (s.reg 0 + BitVec.ofNat 16 j)).toNat / 256 = 0
          then [ConsoleEvent.write ((s.readMem (s.reg 0 + BitVec.ofNat 16 j)).extractLsb' 0 8)]
          else [ConsoleEvent.write ((s.readMem (s.reg 0 + BitVec.ofNat 16 j)).extractLsb' 0 8),
            ConsoleEvent.write ((s.readMem (s.reg 0 + BitVec.ofNat 16 j)).extractLsb' 8 8)]).flatten.take k)))

/-- R190, with R180 for the failures: Halt prints the notice, signals termination, clears running, and issues no flush. -/
def Obligations.HaltClearsRunning : Prop :=
  ∀ s : State,
    (∀ x : BitVec 4, decode (0b1111#4 ++ x ++ 0x25#8) = .ok .trapHalt) ∧
    (s.console.acksDone (s.texts.haltNotice.length + 1) → ∃ t, exec .trapHalt s = .next t ∧ t.running = false ∧
      RegsKept s t ∧ t.pc = s.pc ∧ MemKept s t ∧ t.fault = s.fault ∧ t.texts = s.texts ∧
      EventsAdded s t (s.texts.haltNotice.map .write ++ [.terminate])) ∧
    (∀ k, k < s.texts.haltNotice.length + 1 → s.console.failsAt k → ∃ t, exec .trapHalt s = .next t ∧ IoFailureRecorded s t ∧
      t.running = s.running ∧ RegsKept s t ∧ t.pc = s.pc ∧ MemKept s t ∧
      EventsAdded s t ((s.texts.haltNotice.map ConsoleEvent.write).take k))

/-- R191: after a Halt that completes, the run loop takes no further step, the state is kept with pc after the Halt, and a later
START resumes there; and no other step clears running. -/
def Obligations.HaltStopsTheRunLoop : Prop :=
  (∀ s t : State, s.running = true → s.fault = none → decode (s.readMem s.pc) = .ok .trapHalt → step s = .next t →
    t.fault = none →
    t.running = false ∧ t.pc = s.pc + 1 ∧ (∀ k, runLoop (k + 1) s = .next t) ∧
      ∀ k, hostStart k t = runLoop k { t with running := true }) ∧
  (∀ s t : State, s.running = true → step s = .next t → t.running = false → decode (s.readMem s.pc) = .ok .trapHalt)

/-- R181: a Trap writes no register but R0, never R7, leaves pc at the next word, writes no memory, and changes cond only with
R0. -/
def Obligations.TrapsAreNoControlTransfer : Prop :=
  ∀ (i : Instr) (s t : State), i.isTrap = true → exec i s = .next t →
    t.pc = s.pc ∧ (∀ r, r ≠ 0 → t.reg r = s.reg r) ∧ MemKept s t ∧ t.texts = s.texts ∧
    (i ≠ .trapGetc → i ≠ .trapIn → RegsKept s t) ∧ (t.cond ≠ s.cond → FlagSays t.cond (t.reg 0))

/-! ## The whole machine -/

/-- R22, R26: an instruction writes no register, and then keeps the flag, or it writes the one register R22 names for it, and
the flag is set from that value. -/
def Obligations.RegistersChangeOnlyWithTheFlag : Prop :=
  ∀ (i : Instr) (s t : State), exec i s = .next t →
    RegsKept s t ∨ ∃ d, destReg i = some d ∧ RegWritten s t d (t.reg d)

/-- The last part of R25: no instruction but Branch, Jump and the two JumpSubRoutines writes pc. -/
def Obligations.OnlyControlInstructionsWritePc : Prop :=
  ∀ (i : Instr) (s t : State), writesPc i = false → exec i s = .next t → t.pc = s.pc

/-- The write column of R53: an instruction writes the one word its store names, or no memory at all. -/
def Obligations.OnlyStoresWriteMemory : Prop :=
  ∀ (i : Instr) (s t : State), Memory.wf s.mem = true → exec i s = .next t →
    match storeOf s i with
    | some (a, v) => MemStored s t a v
    | none => MemKept s t

/-- R31, the clearing half: running is changed by no instruction but Halt, which only clears it, and by no decode fault. -/
def Obligations.RunningClearedOnlyByHalt : Prop :=
  ∀ s t : State, step s = .next t →
    t.running = s.running ∨ (decode (s.readMem s.pc) = .ok .trapHalt ∧ t.running = false)

/-- R38: the console operations are issued only by Trap; no other instruction touches the console port or raises a fault, and
each of them completes whatever its operands. -/
def Obligations.OnlyTrapsUseTheConsole : Prop :=
  ∀ (i : Instr) (s : State), i.isTrap = false → ∃ t, exec i s = .next t ∧ t.console = s.console ∧ t.fault = s.fault
end

