-- ==== Sys2Proof/Laws/Codec.lean ====
section
/-! SUPPORT. The fields of a word that is written as a concatenation: what the decoder reads back from each format
(spec/30_encoding.md R76 to R85). Numbers carry the proofs: a concatenation is a sum, a field a quotient and a remainder. -/

namespace Sys2Proof

theorem append_toNat {m n : Nat} (x : BitVec m) (y : BitVec n) : (x ++ y).toNat = x.toNat * 2 ^ n + y.toNat := by
  rw [BitVec.toNat_append, ← Nat.shiftLeft_add_eq_or_of_lt y.isLt, Nat.shiftLeft_eq]

theorem field_toNat {n : Nat} (w : BitVec n) (lo len : Nat) : (w.extractLsb' lo len).toNat = w.toNat / 2 ^ lo % 2 ^ len := by
  rw [BitVec.extractLsb'_toNat, Nat.shiftRight_eq_div_pow]

/-! Opcode, register field, 9-bit field. -/

theorem opcodeOf_reg9 (o : BitVec 4) (a : BitVec 3) (r : BitVec 9) : opcodeOf (o ++ a ++ r) = o := by
  apply BitVec.eq_of_toNat_eq
  rw [opcodeOf, field_toNat, append_toNat, append_toNat]
  have := o.isLt; have := a.isLt; have := r.isLt; omega

theorem regHigh_reg9 (o : BitVec 4) (a : BitVec 3) (r : BitVec 9) : regHigh (o ++ a ++ r) = a := by
  apply BitVec.eq_of_toNat_eq
  rw [regHigh, field_toNat, append_toNat, append_toNat]
  have := o.isLt; have := a.isLt; have := r.isLt; omega

theorem low9_reg9 (o : BitVec 4) (a : BitVec 3) (r : BitVec 9) : BitVec.extractLsb' 0 9 (o ++ a ++ r) = r := by
  apply BitVec.eq_of_toNat_eq
  rw [field_toNat, append_toNat, append_toNat]
  have := o.isLt; have := a.isLt; have := r.isLt; omega

/-! Opcode, two register fields, 6-bit field. -/

theorem opcodeOf_reg6 (o : BitVec 4) (a b : BitVec 3) (r : BitVec 6) : opcodeOf (o ++ a ++ b ++ r) = o := by
  apply BitVec.eq_of_toNat_eq
  rw [opcodeOf, field_toNat, append_toNat, append_toNat, append_toNat]
  have := o.isLt; have := a.isLt; have := b.isLt; have := r.isLt; omega

theorem regHigh_reg6 (o : BitVec 4) (a b : BitVec 3) (r : BitVec 6) : regHigh (o ++ a ++ b ++ r) = a := by
  apply BitVec.eq_of_toNat_eq
  rw [regHigh, field_toNat, append_toNat, append_toNat, append_toNat]
  have := o.isLt; have := a.isLt; have := b.isLt; have := r.isLt; omega

theorem regMid_reg6 (o : BitVec 4) (a b : BitVec 3) (r : BitVec 6) : regMid (o ++ a ++ b ++ r) = b := by
  apply BitVec.eq_of_toNat_eq
  rw [regMid, field_toNat, append_toNat, append_toNat, append_toNat]
  have := o.isLt; have := a.isLt; have := b.isLt; have := r.isLt; omega

theorem low6_reg6 (o : BitVec 4) (a b : BitVec 3) (r : BitVec 6) : BitVec.extractLsb' 0 6 (o ++ a ++ b ++ r) = r := by
  apply BitVec.eq_of_toNat_eq
  rw [field_toNat, append_toNat, append_toNat, append_toNat]
  have := o.isLt; have := a.isLt; have := b.isLt; have := r.isLt; omega

/-! The 6-bit field of the operate formats: a mode bit and five bits, the last three a register in the register form. -/

theorem mode5_append (o : BitVec 4) (a b : BitVec 3) (m : BitVec 1) (r : BitVec 5) :
    immediateMode (o ++ a ++ b ++ m ++ r) = m.getLsbD 0 := by
  have h1 : m = 0 ∨ m = 1 := by revert m; decide
  rw [immediateMode, BitVec.getLsbD_append]
  rcases h1 with rfl | rfl <;> rw [if_neg (by decide), BitVec.getLsbD_append, if_pos (by decide)]

theorem reassoc_operate {o : BitVec 4} {a b : BitVec 3} {m : BitVec 1} {r : BitVec 5} :
    (o ++ a ++ b ++ m ++ r : Word) = o ++ a ++ b ++ (m ++ r) := by
  apply BitVec.eq_of_toNat_eq
  simp only [append_toNat]
  omega

theorem low5_append (o : BitVec 4) (a b : BitVec 3) (m : BitVec 1) (r : BitVec 5) :
    BitVec.extractLsb' 0 5 (o ++ a ++ b ++ m ++ r) = r := by
  apply BitVec.eq_of_toNat_eq
  simp only [field_toNat, append_toNat]
  have := o.isLt; have := a.isLt; have := b.isLt; have := m.isLt; have := r.isLt; omega

theorem reassoc_operateReg {o : BitVec 4} {a b : BitVec 3} {m : BitVec 1} {x : BitVec 2} {c : BitVec 3} :
    (o ++ a ++ b ++ m ++ x ++ c : Word) = o ++ a ++ b ++ m ++ (x ++ c) := by
  apply BitVec.eq_of_toNat_eq
  simp only [append_toNat]
  omega

theorem regLow_append (o : BitVec 4) (a b : BitVec 3) (m : BitVec 1) (x : BitVec 2) (c : BitVec 3) :
    regLow (o ++ a ++ b ++ m ++ x ++ c) = c := by
  apply BitVec.eq_of_toNat_eq
  simp only [regLow, field_toNat, append_toNat]
  have := o.isLt; have := a.isLt; have := b.isLt; have := m.isLt; have := x.isLt; have := c.isLt; omega

/-! The JumpSubRoutine formats. -/

theorem mode11_append (o : BitVec 4) (m : BitVec 1) (r : BitVec 11) : offsetMode (o ++ m ++ r) = m.getLsbD 0 := by
  rw [offsetMode, BitVec.getLsbD_append, if_neg (by decide), BitVec.getLsbD_append, if_pos (by decide)]

theorem opcodeOf_jsr (o : BitVec 4) (m : BitVec 1) (r : BitVec 11) : opcodeOf (o ++ m ++ r) = o := by
  apply BitVec.eq_of_toNat_eq
  simp only [opcodeOf, field_toNat, append_toNat]
  have := o.isLt; have := m.isLt; have := r.isLt; omega

theorem low11_append (o : BitVec 4) (m : BitVec 1) (r : BitVec 11) : BitVec.extractLsb' 0 11 (o ++ m ++ r) = r := by
  apply BitVec.eq_of_toNat_eq
  simp only [field_toNat, append_toNat]
  have := o.isLt; have := m.isLt; have := r.isLt; omega

theorem reassoc_jsrr {o : BitVec 4} {m : BitVec 1} {x : BitVec 2} {b : BitVec 3} {y : BitVec 6} :
    (o ++ m ++ x ++ b ++ y : Word) = o ++ m ++ (x ++ b ++ y) := by
  apply BitVec.eq_of_toNat_eq
  simp only [append_toNat]
  omega

theorem regMid_jsrr (o : BitVec 4) (m : BitVec 1) (x : BitVec 2) (b : BitVec 3) (y : BitVec 6) :
    regMid (o ++ m ++ x ++ b ++ y) = b := by
  apply BitVec.eq_of_toNat_eq
  simp only [regMid, field_toNat, append_toNat]
  have := o.isLt; have := m.isLt; have := x.isLt; have := b.isLt; have := y.isLt; omega

/-! The Trap format. -/

theorem opcodeOf_trap (o x : BitVec 4) (v : BitVec 8) : opcodeOf (o ++ x ++ v) = o := by
  apply BitVec.eq_of_toNat_eq
  simp only [opcodeOf, field_toNat, append_toNat]
  have := o.isLt; have := x.isLt; have := v.isLt; omega

theorem trapVector_append (o x : BitVec 4) (v : BitVec 8) : trapVector (o ++ x ++ v) = v := by
  apply BitVec.eq_of_toNat_eq
  simp only [trapVector, field_toNat, append_toNat]
  have := o.isLt; have := x.isLt; have := v.isLt; omega

/-! A field of an operand word that fits it: sign extension gives the operand back (R9, R96). -/

theorem signExtend_lowBits_5 (v : Word) (h : isImm5 v = true) : (lowBits 5 v).signExtend 16 = v := by
  simp only [isImm5, signedWithin, decide_eq_true_eq] at h
  rw [← BitVec.toInt_inj, BitVec.toInt_signExtend_of_le (by decide)]
  rw [BitVec.toInt_eq_toNat_cond] at h
  rw [BitVec.toInt_eq_toNat_cond, BitVec.toInt_eq_toNat_cond, lowBits, field_toNat]
  have := v.isLt
  split at h <;> split <;> omega

theorem isImm5_signExtend (f : BitVec 5) : isImm5 (f.signExtend 16) = true := by
  simp only [isImm5, signedWithin, decide_eq_true_eq]
  rw [BitVec.toInt_signExtend_of_le (by decide), BitVec.toInt_eq_toNat_cond]
  have := f.isLt
  split <;> omega

theorem signExtend_lowBits_6 (v : Word) (h : isOffset6 v = true) : (lowBits 6 v).signExtend 16 = v := by
  simp only [isOffset6, signedWithin, decide_eq_true_eq] at h
  rw [← BitVec.toInt_inj, BitVec.toInt_signExtend_of_le (by decide)]
  rw [BitVec.toInt_eq_toNat_cond] at h
  rw [BitVec.toInt_eq_toNat_cond, BitVec.toInt_eq_toNat_cond, lowBits, field_toNat]
  have := v.isLt
  split at h <;> split <;> omega

theorem isOffset6_signExtend (f : BitVec 6) : isOffset6 (f.signExtend 16) = true := by
  simp only [isOffset6, signedWithin, decide_eq_true_eq]
  rw [BitVec.toInt_signExtend_of_le (by decide), BitVec.toInt_eq_toNat_cond]
  have := f.isLt
  split <;> omega

theorem signExtend_lowBits_9 (v : Word) (h : isOffset9 v = true) : (lowBits 9 v).signExtend 16 = v := by
  simp only [isOffset9, signedWithin, decide_eq_true_eq] at h
  rw [← BitVec.toInt_inj, BitVec.toInt_signExtend_of_le (by decide)]
  rw [BitVec.toInt_eq_toNat_cond] at h
  rw [BitVec.toInt_eq_toNat_cond, BitVec.toInt_eq_toNat_cond, lowBits, field_toNat]
  have := v.isLt
  split at h <;> split <;> omega

theorem isOffset9_signExtend (f : BitVec 9) : isOffset9 (f.signExtend 16) = true := by
  simp only [isOffset9, signedWithin, decide_eq_true_eq]
  rw [BitVec.toInt_signExtend_of_le (by decide), BitVec.toInt_eq_toNat_cond]
  have := f.isLt
  split <;> omega

theorem signExtend_lowBits_11 (v : Word) (h : isOffset11 v = true) : (lowBits 11 v).signExtend 16 = v := by
  simp only [isOffset11, signedWithin, decide_eq_true_eq] at h
  rw [← BitVec.toInt_inj, BitVec.toInt_signExtend_of_le (by decide)]
  rw [BitVec.toInt_eq_toNat_cond] at h
  rw [BitVec.toInt_eq_toNat_cond, BitVec.toInt_eq_toNat_cond, lowBits, field_toNat]
  have := v.isLt
  split at h <;> split <;> omega

theorem isOffset11_signExtend (f : BitVec 11) : isOffset11 (f.signExtend 16) = true := by
  simp only [isOffset11, signedWithin, decide_eq_true_eq]
  rw [BitVec.toInt_signExtend_of_le (by decide), BitVec.toInt_eq_toNat_cond]
  have := f.isLt
  split <;> omega

end Sys2Proof
end

