-- ==== Sys2Proof/Laws/State.lean ====
section
/-! SUPPORT. What each update of the state leaves in each field, true by unfolding, so that no later proof unfolds a record
update; and the register file's read-after-write. -/

namespace Sys2Proof.Machine

namespace State

@[simp] theorem setReg_pc (s : State) (r : Reg) (v : Word) : (s.setReg r v).pc = s.pc := rfl
@[simp] theorem setReg_cond (s : State) (r : Reg) (v : Word) : (s.setReg r v).cond = flagOf v := rfl
@[simp] theorem setReg_running (s : State) (r : Reg) (v : Word) : (s.setReg r v).running = s.running := rfl
@[simp] theorem setReg_fault (s : State) (r : Reg) (v : Word) : (s.setReg r v).fault = s.fault := rfl
@[simp] theorem setReg_mem (s : State) (r : Reg) (v : Word) : (s.setReg r v).mem = s.mem := rfl
@[simp] theorem setReg_texts (s : State) (r : Reg) (v : Word) : (s.setReg r v).texts = s.texts := rfl
@[simp] theorem setReg_console (s : State) (r : Reg) (v : Word) : (s.setReg r v).console = s.console := rfl
@[simp] theorem setReg_readMem (s : State) (r : Reg) (v a : Word) : (s.setReg r v).readMem a = s.readMem a := rfl

@[simp] theorem setReg_reg_same (s : State) (r : Reg) (v : Word) : (s.setReg r v).reg r = v := by
  simp [State.setReg, State.reg]

theorem setReg_reg_other (s : State) {r q : Reg} (v : Word) (h : q ≠ r) : (s.setReg r v).reg q = s.reg q := by
  have hne : r.toNat ≠ q.toNat := fun e => h (BitVec.eq_of_toNat_eq e.symm)
  simp [State.setReg, State.reg, hne]

@[simp] theorem setPc_regs (s : State) (v : Word) : (s.setPc v).regs = s.regs := rfl
@[simp] theorem setPc_reg (s : State) (v : Word) (r : Reg) : (s.setPc v).reg r = s.reg r := rfl
@[simp] theorem setPc_pc (s : State) (v : Word) : (s.setPc v).pc = v := rfl
@[simp] theorem setPc_cond (s : State) (v : Word) : (s.setPc v).cond = s.cond := rfl
@[simp] theorem setPc_running (s : State) (v : Word) : (s.setPc v).running = s.running := rfl
@[simp] theorem setPc_fault (s : State) (v : Word) : (s.setPc v).fault = s.fault := rfl
@[simp] theorem setPc_mem (s : State) (v : Word) : (s.setPc v).mem = s.mem := rfl
@[simp] theorem setPc_texts (s : State) (v : Word) : (s.setPc v).texts = s.texts := rfl
@[simp] theorem setPc_console (s : State) (v : Word) : (s.setPc v).console = s.console := rfl
@[simp] theorem setPc_readMem (s : State) (v a : Word) : (s.setPc v).readMem a = s.readMem a := rfl

@[simp] theorem writeMem_regs (s : State) (a v : Word) : (s.writeMem a v).regs = s.regs := rfl
@[simp] theorem writeMem_reg (s : State) (a v : Word) (r : Reg) : (s.writeMem a v).reg r = s.reg r := rfl
@[simp] theorem writeMem_pc (s : State) (a v : Word) : (s.writeMem a v).pc = s.pc := rfl
@[simp] theorem writeMem_cond (s : State) (a v : Word) : (s.writeMem a v).cond = s.cond := rfl
@[simp] theorem writeMem_running (s : State) (a v : Word) : (s.writeMem a v).running = s.running := rfl
@[simp] theorem writeMem_fault (s : State) (a v : Word) : (s.writeMem a v).fault = s.fault := rfl
@[simp] theorem writeMem_mem (s : State) (a v : Word) : (s.writeMem a v).mem = Memory.write s.mem a.toNat v := rfl
@[simp] theorem writeMem_texts (s : State) (a v : Word) : (s.writeMem a v).texts = s.texts := rfl
@[simp] theorem writeMem_console (s : State) (a v : Word) : (s.writeMem a v).console = s.console := rfl

@[simp] theorem advance_regs (s : State) : s.advance.regs = s.regs := rfl
@[simp] theorem advance_reg (s : State) (r : Reg) : s.advance.reg r = s.reg r := rfl
@[simp] theorem advance_pc (s : State) : s.advance.pc = s.pc + 1 := rfl
@[simp] theorem advance_cond (s : State) : s.advance.cond = s.cond := rfl
@[simp] theorem advance_running (s : State) : s.advance.running = s.running := rfl
@[simp] theorem advance_fault (s : State) : s.advance.fault = s.fault := rfl
@[simp] theorem advance_mem (s : State) : s.advance.mem = s.mem := rfl
@[simp] theorem advance_texts (s : State) : s.advance.texts = s.texts := rfl
@[simp] theorem advance_console (s : State) : s.advance.console = s.console := rfl
@[simp] theorem advance_readMem (s : State) (a : Word) : s.advance.readMem a = s.readMem a := rfl

/-- During an instruction the current address is the one it was fetched from (R24). -/
@[simp] theorem advance_currentAddress (s : State) : s.advance.currentAddress = s.pc := by
  show s.pc + 1 - 1 = s.pc
  exact BitVec.add_sub_cancel s.pc 1

@[simp] theorem raise_regs (s : State) (c : FaultCause) : (s.raise c).regs = s.regs := rfl
@[simp] theorem raise_reg (s : State) (c : FaultCause) (r : Reg) : (s.raise c).reg r = s.reg r := rfl
@[simp] theorem raise_pc (s : State) (c : FaultCause) : (s.raise c).pc = s.pc := rfl
@[simp] theorem raise_cond (s : State) (c : FaultCause) : (s.raise c).cond = s.cond := rfl
@[simp] theorem raise_running (s : State) (c : FaultCause) : (s.raise c).running = s.running := rfl
@[simp] theorem raise_mem (s : State) (c : FaultCause) : (s.raise c).mem = s.mem := rfl
@[simp] theorem raise_texts (s : State) (c : FaultCause) : (s.raise c).texts = s.texts := rfl
@[simp] theorem raise_console (s : State) (c : FaultCause) : (s.raise c).console = s.console := rfl
@[simp] theorem raise_readMem (s : State) (c : FaultCause) (a : Word) : (s.raise c).readMem a = s.readMem a := rfl
@[simp] theorem raise_fault (s : State) (c : FaultCause) :
    (s.raise c).fault = some { cause := c, word := s.readMem s.currentAddress, address := s.currentAddress } := rfl

@[simp] theorem start_fault (s : State) : s.start.fault = s.fault := by
  unfold State.start; split <;> rfl

@[simp] theorem start_pc (s : State) : s.start.pc = s.pc := by
  unfold State.start; split <;> rfl

end State

/-- The flag a write sets says the sign of the written value (R27). -/
theorem flagSays_flagOf (v : Word) : FlagSays (flagOf v) v := by
  have hz : v.toInt = 0 ↔ v = 0 := by
    rw [← BitVec.toInt_inj]; simp
  have hm : v.getLsbD 15 = true ↔ v.toInt < 0 := by
    have h := BitVec.msb_eq_toInt (x := v)
    rw [BitVec.msb_eq_getLsbD_last] at h
    simp only [Nat.reduceSub] at h
    rw [h]; simp
  unfold FlagSays flagOf
  split
  · rename_i h; subst h; simp
  · rename_i h
    have h0 : v.toInt ≠ 0 := fun e => h (hz.mp e)
    split
    · rename_i hb; have := hm.mp hb; simp; omega
    · rename_i hb
      have : ¬ v.toInt < 0 := fun e => hb (hm.mpr e)
      simp; omega

/-- What one register write does (R26, R27). -/
theorem regWritten_setReg (s : State) (d : Reg) (v : Word) : RegWritten s (s.setReg d v) d v :=
  ⟨s.setReg_reg_same d v, fun _ h => s.setReg_reg_other v h, flagSays_flagOf v⟩

end Sys2Proof.Machine
end

