-- ==== Sys2Proof/Laws/Memory.lean ====
section
/-! SUPPORT. The laws of the memory array: a read after a write, and that every operation keeps the canonical form. -/

namespace Sys2Proof.Machine

namespace Memory

theorem read_entry (m : Memory) (a b : Nat) (v : Word) (h : ∀ c, c ≤ a → read m c = unlistedWord) :
    read (entry a v m) b = if b = a then v else read m b := by
  unfold entry
  split
  · next hv => split
               · next hb => rw [hb, h a (Nat.le_refl a), hv]
               · rfl
  · rfl

/-- Below its first entry a canonical memory lists nothing. -/
theorem read_of_wfFrom (m : Memory) (lo a : Nat) (hwf : wfFrom lo m = true) (ha : a < lo) : read m a = unlistedWord := by
  induction m generalizing lo with
  | nil => rfl
  | cons e rest ih =>
    obtain ⟨k, w⟩ := e
    simp only [wfFrom, Bool.and_eq_true, decide_eq_true_eq] at hwf
    obtain ⟨⟨⟨h1, -⟩, -⟩, h4⟩ := hwf
    simp only [read]
    rw [if_neg (by omega)]
    exact ih (k + 1) h4 (by omega)

theorem wfFrom_mono (m : Memory) (lo hi : Nat) (hwf : wfFrom hi m = true) (h : lo ≤ hi) : wfFrom lo m = true := by
  cases m with
  | nil => rfl
  | cons e rest =>
    obtain ⟨k, w⟩ := e
    simp only [wfFrom, Bool.and_eq_true, decide_eq_true_eq] at hwf ⊢
    exact ⟨⟨⟨by omega, hwf.1.1.2⟩, hwf.1.2⟩, hwf.2⟩

theorem wfFrom_entry (m : Memory) (lo a : Nat) (v : Word) (hlo : lo ≤ a) (ha : a < memoryWords)
    (hwf : wfFrom (a + 1) m = true) : wfFrom lo (entry a v m) = true := by
  unfold entry
  split
  · exact wfFrom_mono m lo (a + 1) hwf (by omega)
  · next hv => simp [wfFrom, hlo, ha, hv, hwf]

/-- A write keeps the canonical form. -/
theorem wfFrom_write (m : Memory) (lo a : Nat) (v : Word) (hlo : lo ≤ a) (ha : a < memoryWords)
    (hwf : wfFrom lo m = true) : wfFrom lo (write m a v) = true := by
  induction m generalizing lo with
  | nil => exact wfFrom_entry [] lo a v hlo ha rfl
  | cons e rest ih =>
    obtain ⟨k, w⟩ := e
    have hw := hwf
    simp only [wfFrom, Bool.and_eq_true, decide_eq_true_eq] at hwf
    obtain ⟨⟨⟨h1, h2⟩, h3⟩, h4⟩ := hwf
    simp only [write]
    split
    · next hlt =>
      refine wfFrom_entry _ lo a v hlo ha ?_
      simp [wfFrom, show a + 1 ≤ k by omega, h2, h3, h4]
    · split
      · next heq => subst heq; exact wfFrom_entry _ lo a v hlo ha h4
      · next hge hne => simp [wfFrom, h1, h2, h3, ih (k + 1) (by omega) h4]

/-- A write into the array keeps a memory canonical. -/
theorem wf_write (m : Memory) (a : Word) (v : Word) (hwf : wf m = true) : wf (write m a.toNat v) = true :=
  wfFrom_write m 0 a.toNat v (Nat.zero_le _) a.isLt hwf

/-- Loading an image keeps a memory canonical. -/
theorem wf_load (ws : List Word) (m : Memory) (a : Word) (hwf : wf m = true) : wf (load m a ws) = true := by
  induction ws generalizing m a with
  | nil => exact hwf
  | cons w rest ih => exact ih _ _ (wf_write m a w hwf)

/-- What a read gives after a write: the written word at its address, the old word elsewhere. -/
theorem read_write (m : Memory) (lo a b : Nat) (v : Word) (hwf : wfFrom lo m = true) :
    read (write m a v) b = if b = a then v else read m b := by
  induction m generalizing lo with
  | nil => exact read_entry [] a b v (fun _ _ => rfl)
  | cons e rest ih =>
    obtain ⟨k, w⟩ := e
    have hw := hwf
    simp only [wfFrom, Bool.and_eq_true, decide_eq_true_eq] at hwf
    obtain ⟨⟨⟨h1, h2⟩, h3⟩, h4⟩ := hwf
    simp only [write]
    split
    · next hlt =>
      refine read_entry _ a b v (fun c hc => ?_)
      exact read_of_wfFrom _ k c (by simp [wfFrom, h2, h3, h4]) (by omega)
    · split
      · next heq =>
        subst heq
        rw [read_entry _ a b v (fun c hc => read_of_wfFrom _ (a + 1) c h4 (by omega))]
        by_cases hb : b = a <;> simp [read, hb]
      · next hge hne =>
        simp only [read]
        by_cases hb : b = k
        · subst hb; rw [if_pos rfl, if_neg (by omega), if_pos rfl]
        · rw [if_neg hb, if_neg hb, ih (k + 1) h4]

/-- The canonical form is one: two canonical memories that read alike are equal. -/
theorem eq_of_read (m n : Memory) (lo : Nat) (hm : wfFrom lo m = true) (hn : wfFrom lo n = true)
    (h : ∀ a, read m a = read n a) : m = n := by
  induction m generalizing lo n with
  | nil =>
    cases n with
    | nil => rfl
    | cons e rest =>
      obtain ⟨k, w⟩ := e
      simp only [wfFrom, Bool.and_eq_true, decide_eq_true_eq] at hn
      have := h k
      simp only [read, if_true] at this
      exact absurd this.symm hn.1.2
  | cons e rest ih =>
    obtain ⟨k, w⟩ := e
    cases n with
    | nil =>
      simp only [wfFrom, Bool.and_eq_true, decide_eq_true_eq] at hm
      have := h k
      simp only [read, if_true] at this
      exact absurd this hm.1.2
    | cons e' rest' =>
      obtain ⟨k', w'⟩ := e'
      have hm' := hm
      have hn' := hn
      simp only [wfFrom, Bool.and_eq_true, decide_eq_true_eq] at hm hn
      have hk : k = k' := by
        rcases Nat.lt_trichotomy k k' with hlt | heq | hgt
        · have h1 := h k
          have h2 : read ((k', w') :: rest') k = unlistedWord :=
            read_of_wfFrom _ k' k (by simp [wfFrom, hn.1.1.2, hn.1.2, hn.2]) hlt
          rw [h2] at h1
          simp only [read, if_true] at h1
          exact absurd h1 hm.1.2
        · exact heq
        · have h1 := h k'
          have h2 : read ((k, w) :: rest) k' = unlistedWord :=
            read_of_wfFrom _ k k' (by simp [wfFrom, hm.1.1.2, hm.1.2, hm.2]) hgt
          rw [h2] at h1
          simp only [read, if_true] at h1
          exact absurd h1.symm hn.1.2
      subst hk
      have hw : w = w' := by have := h k; simpa [read] using this
      subst hw
      have htail : rest = rest' := by
        refine ih rest' (k + 1) hm.2 hn.2 (fun a => ?_)
        by_cases ha : a = k
        · subst ha
          rw [read_of_wfFrom _ (a + 1) a hm.2 (by omega), read_of_wfFrom _ (a + 1) a hn.2 (by omega)]
        · have := h a
          simpa [read, ha] using this
      rw [htail]

end Memory

/-- MemRead after MemWrite, on a canonical memory. -/
theorem State.readMem_writeMem (s : State) (a v b : Word) (hwf : Memory.wf s.mem = true) :
    (s.writeMem a v).readMem b = if b = a then v else s.readMem b := by
  unfold State.readMem State.writeMem
  rw [Memory.read_write s.mem 0 a.toNat b.toNat v hwf]
  by_cases h : b = a
  · simp [h]
  · have : b.toNat ≠ a.toNat := fun e => h (BitVec.eq_of_toNat_eq e)
    simp [h, this]

/-- What one store does (R52). -/
theorem memStored_writeMem (s : State) (a v : Word) (hwf : Memory.wf s.mem = true) : MemStored s (s.writeMem a v) a v := by
  refine ⟨?_, fun b hb => ?_⟩
  · rw [State.readMem_writeMem s a v a hwf, if_pos rfl]
  · rw [State.readMem_writeMem s a v b hwf, if_neg hb]

end Sys2Proof.Machine
end

