-- ==== Sys2Proof/Laws/Console.lean ====
section
/-! SUPPORT. What the console operations can do: one lemma says everything a list of requests can end in, and two say which end
the console's answers pick. -/

namespace Sys2Proof.Machine

/-- A state with another console in its place: all a completed console operation changes. -/
def State.withConsole (s : State) (c : Console) : State := { s with console := c }

namespace State

@[simp] theorem withConsole_regs (s : State) (c : Console) : (s.withConsole c).regs = s.regs := rfl
@[simp] theorem withConsole_reg (s : State) (c : Console) (r : Reg) : (s.withConsole c).reg r = s.reg r := rfl
@[simp] theorem withConsole_pc (s : State) (c : Console) : (s.withConsole c).pc = s.pc := rfl
@[simp] theorem withConsole_cond (s : State) (c : Console) : (s.withConsole c).cond = s.cond := rfl
@[simp] theorem withConsole_running (s : State) (c : Console) : (s.withConsole c).running = s.running := rfl
@[simp] theorem withConsole_fault (s : State) (c : Console) : (s.withConsole c).fault = s.fault := rfl
@[simp] theorem withConsole_mem (s : State) (c : Console) : (s.withConsole c).mem = s.mem := rfl
@[simp] theorem withConsole_texts (s : State) (c : Console) : (s.withConsole c).texts = s.texts := rfl
@[simp] theorem withConsole_console (s : State) (c : Console) : (s.withConsole c).console = c := rfl
@[simp] theorem withConsole_readMem (s : State) (c : Console) (a : Word) : (s.withConsole c).readMem a = s.readMem a := rfl
@[simp] theorem withConsole_twice (s : State) (c d : Console) : (s.withConsole c).withConsole d = s.withConsole d := rfl
@[simp] theorem withConsole_self (s : State) : s.withConsole s.console = s := rfl

end State

namespace Console

@[simp] theorem log_events (c : Console) (e : ConsoleEvent) : (c.log e).events = c.events ++ [e] := rfl
@[simp] theorem log_nextRead (c : Console) (e : ConsoleEvent) : (c.log e).nextRead = c.nextRead := rfl
@[simp] theorem popRead_log_events (c : Console) (e : ConsoleEvent) : (c.popRead.log e).events = c.popRead.events ++ [e] := rfl

@[simp] theorem popAck_events (c : Console) : c.popAck.events = c.events := by
  unfold popAck; split <;> rfl

@[simp] theorem log_nextAck (c : Console) (e : ConsoleEvent) : (c.log e).nextAck = c.nextAck := rfl
@[simp] theorem log_popAck (c : Console) (e : ConsoleEvent) : (c.log e).popAck = c.popAck.log e := by
  obtain ⟨reads, silent, acks, run, rd, ad, ev⟩ := c
  cases acks <;> first | rfl | (cases run with | none => rfl | some n => cases n <;> rfl)
@[simp] theorem popRead_nextAck (c : Console) : c.popRead.nextAck = c.nextAck := by
  unfold popRead; split <;> rfl
@[simp] theorem popRead_popAck (c : Console) : c.popRead.popAck = c.popAck.popRead := by
  obtain ⟨reads, silent, acks, run, rd, ad, ev⟩ := c
  cases reads <;> cases acks <;> first | rfl | (cases run with | none => rfl | some n => cases n <;> rfl)
theorem ackAt_zero (c : Console) : c.ackAt 0 = c.nextAck := rfl

/-- Giving an answer moves every later one a place forward. -/
@[simp] theorem popAck_ackAt (c : Console) (k : Nat) : c.popAck.ackAt k = c.ackAt (k + 1) := rfl

@[simp] theorem log_ackAt (c : Console) (e : ConsoleEvent) (k : Nat) : (c.log e).ackAt k = c.ackAt k := by
  induction k generalizing c with
  | zero => rfl
  | succ k ih => rw [← popAck_ackAt, ← popAck_ackAt, log_popAck, ih]

@[simp] theorem popRead_events (c : Console) : c.popRead.events = c.events := by
  unfold popRead; split <;> rfl

@[simp] theorem popAck_nextRead (c : Console) : c.popAck.nextRead = c.nextRead := by
  unfold popAck; split <;> rfl

@[simp] theorem popRead_ackAt (c : Console) (k : Nat) : c.popRead.ackAt k = c.ackAt k := by
  induction k generalizing c with
  | zero => exact popRead_nextAck c
  | succ k ih => rw [← popAck_ackAt, ← popAck_ackAt, popRead_popAck, ih]

/-- A failure that is next comes after no answer done. -/
theorem firstFailure_of_failure (c : Console) (h : c.nextAck = .failure) : c.firstFailure = some 0 := by
  obtain ⟨reads, silent, acks, run, rd, ad, ev⟩ := c
  cases acks with
  | cons a rest => obtain rfl : a = .failure := h; rfl
  | nil =>
    cases run with
    | none => cases h
    | some n => cases n with
      | zero => rfl
      | succ n => cases h

/-- An answer done that is next is one more before the first failure. -/
theorem firstFailure_of_done (c : Console) (h : c.nextAck = .done) : c.firstFailure = c.popAck.firstFailure.map (· + 1) := by
  obtain ⟨reads, silent, acks, run, rd, ad, ev⟩ := c
  cases acks with
  | cons a rest => obtain rfl : a = .done := h; rfl
  | nil =>
    cases run with
    | none => rfl
    | some n => cases n with
      | zero => cases h
      | succ n => rfl

/-- All that firstFailure says: where the first failure is, or that there is none. -/
theorem firstFailure_spec (c : Console) :
    (∀ k, c.firstFailure = some k → c.failsAt k) ∧ (c.firstFailure = none → ∀ n, c.acksDone n) := by
  constructor
  · intro k
    induction k generalizing c with
    | zero =>
      intro h
      refine ⟨fun j hj => absurd hj (Nat.not_lt_zero j), ?_⟩
      cases ha : c.nextAck with
      | failure => exact ha
      | done => rw [firstFailure_of_done c ha] at h; cases hp : c.popAck.firstFailure <;> rw [hp] at h <;> cases h
    | succ k ih =>
      intro h
      cases ha : c.nextAck with
      | failure => rw [firstFailure_of_failure c ha] at h; cases h
      | done =>
        rw [firstFailure_of_done c ha, Option.map_eq_some_iff] at h
        obtain ⟨j, hj, hjk⟩ := h
        obtain rfl : j = k := Nat.succ.inj hjk
        refine ⟨fun i hi => ?_, (ih c.popAck hj).2⟩
        cases i with
        | zero => exact ha
        | succ i => exact (ih c.popAck hj).1 i (by omega)
  · intro h n k hk
    clear hk
    induction k generalizing c with
    | zero =>
      cases ha : c.nextAck with
      | failure => rw [firstFailure_of_failure c ha] at h; cases h
      | done => exact ha
    | succ k ih =>
      apply ih c.popAck
      cases ha : c.nextAck with
      | failure => rw [firstFailure_of_failure c ha] at h; cases h
      | done => rwa [firstFailure_of_done c ha, Option.map_eq_none_iff] at h

/-- The first failure is where failsAt says. -/
theorem firstFailure_of_failsAt (c : Console) (k : Nat) (h : c.failsAt k) : c.firstFailure = some k := by
  induction k generalizing c with
  | zero => exact firstFailure_of_failure c h.2
  | succ k ih =>
    rw [firstFailure_of_done c (h.1 0 (Nat.succ_pos k)), ih c.popAck ⟨fun i hi => h.1 (i + 1) (by omega), h.2⟩]
    rfl

/-- Where every answer is done, there is no first failure. -/
theorem firstFailure_of_acksDone (c : Console) (h : ∀ n, c.acksDone n) : c.firstFailure = none := by
  cases hf : c.firstFailure with
  | none => rfl
  | some k =>
    have hk := ((firstFailure_spec c).1 k hf).2
    rw [h (k + 1) k (Nat.lt_succ_self k)] at hk
    cases hk

end Console

theorem request_done (e : ConsoleEvent) (s : State) (h : s.console.nextAck = .done) :
    request e s = .ok (s.withConsole (s.console.popAck.log e)) := by
  unfold request; rw [h]; rfl

theorem request_failure (e : ConsoleEvent) (s : State) (h : s.console.nextAck = .failure) :
    request e s = .error ((s.withConsole s.console.popAck).raise .ioFailure) := by
  unfold request; rw [h]; rfl

/-- Everything a list of requests can end in: all done, or the fault after the first k of them. -/
theorem requests_cases (es : List ConsoleEvent) (s : State) :
    (∃ c, requests es s = .ok (s.withConsole c) ∧ c.events = s.console.events ++ es ∧ c.nextRead = s.console.nextRead ∧
      s.console.acksDone es.length ∧ ∀ k, c.ackAt k = s.console.ackAt (es.length + k)) ∨
    (∃ c k, requests es s = .error ((s.withConsole c).raise .ioFailure) ∧ c.events = s.console.events ++ es.take k ∧
      k < es.length ∧ s.console.failsAt k) := by
  induction es generalizing s with
  | nil =>
    refine .inl ⟨s.console, rfl, by simp, rfl, fun k hk => absurd hk (Nat.not_lt_zero k), fun k => ?_⟩
    simp
  | cons e rest ih =>
    cases h0 : s.console.nextAck with
    | failure =>
      refine .inr ⟨s.console.popAck, 0, ?_, by simp, by simp, ⟨fun k hk => absurd hk (Nat.not_lt_zero k), h0⟩⟩
      simp [requests, request_failure e s h0, Except.bind]
    | done =>
      have hreq : requests (e :: rest) s = requests rest (s.withConsole (s.console.popAck.log e)) := by
        simp [requests, request_done e s h0, Except.bind]
      have hshift : ∀ k, (s.console.popAck.log e).ackAt k = s.console.ackAt (k + 1) := fun k => by simp
      rcases ih (s.withConsole (s.console.popAck.log e)) with ⟨c, hr, hev, hnr, hd, hk⟩ | ⟨c, k, hr, hev, hlt, hf⟩
      · refine .inl ⟨c, by rw [hreq, hr]; rfl, by simp [hev], by simp [hnr], ?_, fun k => ?_⟩
        · intro k hk'
          cases k with
          | zero => exact h0
          | succ k => rw [← hshift k]; exact hd k (by simpa using hk')
        · rw [hk k, State.withConsole_console, hshift]; congr 1; simp; omega
      · refine .inr ⟨c, k + 1, by rw [hreq, hr]; rfl, by simp [hev], by simpa using hlt, ?_, ?_⟩
        · intro j hj
          cases j with
          | zero => exact h0
          | succ j => rw [← hshift j]; exact hf.1 j (by omega)
        · rw [← hshift k]; exact hf.2

/-- When every answer is done, every request completes. -/
theorem requests_done (es : List ConsoleEvent) (s : State) (h : s.console.acksDone es.length) :
    ∃ c, requests es s = .ok (s.withConsole c) ∧ c.events = s.console.events ++ es ∧ c.nextRead = s.console.nextRead ∧
      ∀ k, c.ackAt k = s.console.ackAt (es.length + k) := by
  rcases requests_cases es s with ⟨c, hr, hev, hnr, -, hk⟩ | ⟨c, k, -, -, hlt, hf⟩
  · exact ⟨c, hr, hev, hnr, hk⟩
  · have := h k hlt
    rw [hf.2] at this
    exact absurd this (by decide)

/-- When the answer after k done ones is failure, the fault is raised after k completed requests. -/
theorem requests_failed (es : List ConsoleEvent) (s : State) (k : Nat) (hk : k < es.length) (h : s.console.failsAt k) :
    ∃ c, requests es s = .error ((s.withConsole c).raise .ioFailure) ∧ c.events = s.console.events ++ es.take k := by
  rcases requests_cases es s with ⟨c, -, -, -, hd, -⟩ | ⟨c, j, hr, hev, hlt, hf⟩
  · have := hd k hk
    rw [h.2] at this
    exact absurd this (by decide)
  · have hjk : j = k := by
      rcases Nat.lt_trichotomy j k with hlt' | heq | hgt
      · have := h.1 j hlt'
        rw [hf.2] at this
        exact absurd this (by decide)
      · exact heq
      · have := hf.1 k hgt
        rw [h.2] at this
        exact absurd this (by decide)
    subst hjk
    exact ⟨c, hr, hev⟩

/-- Everything a read's answer can end in. -/
theorem takeRead_cases (a : ReadAnswer) (s : State) :
    (∃ b, a = .byte b ∧
      takeRead a s = .ok ((s.withConsole (s.console.popRead.log (.read b))).setReg 0 (zext16 b))) ∨
    (a = .failure ∧ takeRead a s = .error ((s.withConsole s.console.popRead).raise .ioFailure)) := by
  cases a with
  | byte b => exact .inl ⟨b, rfl, rfl⟩
  | failure => exact .inr ⟨rfl, rfl⟩

/-- At most fuel words come before the first zero word. -/
theorem stringWords_length_le (m : Memory) (fuel : Nat) (a : Word) : (stringWords m fuel a).length ≤ fuel := by
  induction fuel generalizing a with
  | zero => simp [stringWords]
  | succ n ih =>
    simp only [stringWords]
    split
    · simp
    · simpa using ih (a + 1)

/-- A string of n nonzero words before a zero word is read whole and no further (R186). -/
theorem stringWords_terminated (m : Memory) (n fuel : Nat) (a : Word) (hn : n < fuel)
    (hnz : ∀ k, k < n → Memory.read m (a + BitVec.ofNat 16 k).toNat ≠ 0)
    (hz : Memory.read m (a + BitVec.ofNat 16 n).toNat = 0) :
    stringWords m fuel a = (List.range n).map fun k => Memory.read m (a + BitVec.ofNat 16 k).toNat := by
  induction n generalizing a fuel with
  | zero =>
    obtain ⟨f, rfl⟩ : ∃ f, fuel = f + 1 := ⟨fuel - 1, by omega⟩
    have hz' : Memory.read m a.toNat = 0 := by simpa using hz
    simp [stringWords, hz']
  | succ n ih =>
    obtain ⟨f, rfl⟩ : ∃ f, fuel = f + 1 := ⟨fuel - 1, by omega⟩
    have h0 : Memory.read m a.toNat ≠ 0 := by simpa using hnz 0 (by omega)
    have hadd : ∀ k : Nat, a + 1 + BitVec.ofNat 16 k = a + BitVec.ofNat 16 (k + 1) := fun k => by
      rw [BitVec.ofNat_add, BitVec.add_assoc, BitVec.add_comm (BitVec.ofNat 16 k)]; rfl
    have hrest := ih f (a + 1) (by omega) (fun k hk => by rw [hadd]; exact hnz (k + 1) (by omega)) (by rw [hadd]; exact hz)
    simp only [stringWords, if_neg h0, hrest, List.range_succ_eq_map, List.map_cons, List.map_map]
    congr 1
    · simp
    · apply List.map_congr_left; intro k _; simp only [Function.comp, hadd]

/-- A read of fuel words that meets no zero word is that long. -/
theorem stringWords_endless (m : Memory) (fuel : Nat) (a : Word) (h : ∀ b : Word, Memory.read m b.toNat ≠ 0) :
    (stringWords m fuel a).length = fuel := by
  induction fuel generalizing a with
  | zero => rfl
  | succ n ih => rw [stringWords, if_neg (h a), List.length_cons, ih]

/-- Each word gives at least one byte (R186, R188). -/
theorem putsBytes_pos (w : Word) : 0 < (putsBytes w).length := Nat.one_pos

theorem putspBytes_pos (w : Word) : 0 < (putspBytes w).length := by
  unfold putspBytes; split <;> exact Nat.succ_pos _

/-- Words of at least one byte each give at least as many writes as they are. -/
theorem writesOf_length_ge (f : Word → List Byte) (hf : ∀ w, 0 < (f w).length) (ws : List Word) :
    ws.length ≤ (writesOf (ws.flatMap f)).length := by
  induction ws with
  | nil => exact Nat.le_refl 0
  | cons w ws ih =>
    have hw := hf w
    simp only [writesOf, List.length_map, List.flatMap_cons, List.length_append, List.length_cons] at ih ⊢
    omega

/-- With no zero word in memory, fuel words give at least fuel writes: enough to reach a failure after fuel - 1 of them. -/
theorem stringWrites_length_ge (f : Word → List Byte) (hf : ∀ w, 0 < (f w).length) (fuel : Nat) (s : State)
    (h : ∀ b : Word, Memory.read s.mem b.toNat ≠ 0) : fuel ≤ (stringWrites f fuel s).length := by
  have := writesOf_length_ge f hf (stringWords s.mem fuel (s.reg 0))
  rwa [stringWords_endless s.mem fuel (s.reg 0) h] at this

/-- With no zero word in memory and a failure to come, a string trap ends where it comes, after exactly the writes before it. -/
theorem printString_endless_fails (f : Word → List Byte) (hf : ∀ w, 0 < (f w).length) (s : State) (k : Nat)
    (h : ∀ b : Word, Memory.read s.mem b.toNat ≠ 0) (hk : s.console.failsAt k) :
    ∃ c, printString f s = .next ((s.withConsole c).raise .ioFailure) ∧
      c.events = s.console.events ++ (stringWrites f (k + 1) s).take k := by
  obtain ⟨c, hr, hev⟩ := requests_failed _ s k (stringWrites_length_ge f hf (k + 1) s h) hk
  refine ⟨c, ?_, hev⟩
  rw [printString, stringWords_endless s.mem memoryWords (s.reg 0) h, if_neg (Nat.lt_irrefl memoryWords),
    Console.firstFailure_of_failsAt s.console k hk]
  show Host.Outcome.next (settle (requests (stringWrites f (k + 1) s) s)) = _
  rw [hr]
  rfl

/-- With no zero word in memory and no failure to come, a string trap never completes. -/
theorem printString_endless_never (f : Word → List Byte) (s : State)
    (h : ∀ b : Word, Memory.read s.mem b.toNat ≠ 0) (hd : ∀ n, s.console.acksDone n) :
    printString f s = .fault .stringNeverEnds := by
  rw [printString, stringWords_endless s.mem memoryWords (s.reg 0) h, if_neg (Nat.lt_irrefl memoryWords),
    Console.firstFailure_of_acksDone s.console hd]

end Sys2Proof.Machine
end

