-- ==== Sys2Proof/Laws/Exec.lean ====
section
/-! SUPPORT. Once and for all, what a step and each kind of instruction can do: what the proofs about all instructions cite
instead of unfolding exec. -/

namespace Sys2Proof.Machine

/-- A step of a core with no fault: the decoded instruction or the decode fault. -/
theorem step_of_noFault (s : State) (h : s.fault = none) :
    step s = match decode s.fetchWord with
      | .ok i => exec i s.advance
      | .error c => .next (s.takeDecodeFault c) := by
  cases s
  cases h
  rfl

/-- Between the fetch and the end of a Trap: another console; or R0 written from a byte read; or either of these and the
fault; or all done and running cleared. -/
inductive TrapEnd (s : State) : Instr → State → Prop where
  | consoleOnly {i : Instr} (c : Console) (h : i ≠ .trapGetc ∧ i ≠ .trapIn ∧ i ≠ .trapHalt) :
      TrapEnd s i (s.withConsole c)
  | read {i : Instr} (c : Console) (b : Byte) (h : i = .trapGetc ∨ i = .trapIn) :
      TrapEnd s i ((s.withConsole c).setReg 0 (zext16 b))
  | failed {i : Instr} (c : Console) : TrapEnd s i ((s.withConsole c).raise .ioFailure)
  | readFailed (c : Console) (b : Byte) :
      TrapEnd s .trapIn (((s.withConsole c).setReg 0 (zext16 b)).raise .ioFailure)
  | halted (c : Console) : TrapEnd s .trapHalt { s.withConsole c with running := false }

/-- A string trap that completes has another console, or the fault. -/
theorem printString_next (f : Word → List Byte) (s t : State) (h : printString f s = .next t) :
    ∃ c, t = s.withConsole c ∨ t = (s.withConsole c).raise .ioFailure := by
  unfold printString at h
  split at h
  · rcases requests_cases _ s with ⟨c, hr, -⟩ | ⟨c, k, hr, -⟩ <;> rw [hr] at h <;> cases h
    · exact ⟨c, .inl rfl⟩
    · exact ⟨c, .inr rfl⟩
  · split at h
    · rcases requests_cases _ s with ⟨c, hr, -⟩ | ⟨c, k, hr, -⟩ <;> rw [hr] at h <;> cases h
      · exact ⟨c, .inl rfl⟩
      · exact ⟨c, .inr rfl⟩
    · cases h

theorem trapEnd_getc (s t : State) (h : execTrapGetc s = .next t) : TrapEnd s .trapGetc t := by
  unfold execTrapGetc at h
  split at h
  · cases h
  · next a _ =>
    rcases takeRead_cases a s with ⟨b, -, hr⟩ | ⟨-, hr⟩ <;> rw [hr] at h <;> cases h
    · exact .read _ b (.inl rfl)
    · exact .failed _

theorem trapEnd_in (s t : State) (h : execTrapIn s = .next t) : TrapEnd s .trapIn t := by
  unfold execTrapIn at h
  simp only at h
  rcases requests_cases (writesOf s.texts.inPrompt) s with ⟨c, hr, -⟩ | ⟨c, k, hr, -⟩ <;> rw [hr] at h
  · split at h
    · cases h
    · next a _ =>
      rcases takeRead_cases a (s.withConsole c) with ⟨b, -, hb⟩ | ⟨-, hb⟩ <;>
        simp only [Except.bind, hb] at h
      · rcases requests_cases [.flush]
          (((s.withConsole c).withConsole ((s.withConsole c).console.popRead.log (.read b))).setReg 0 (zext16 b)) with
          ⟨d, hd, -⟩ | ⟨d, j, hd, -⟩
        all_goals
          have hone : ∀ u, requests [.flush] u = request .flush u := fun u => by
            unfold requests; cases request .flush u <;> rfl
          rw [hone] at hd
          rw [hd] at h
          cases h
        · exact .read d b (.inr rfl)
        · exact .readFailed d b
      · cases h
        exact .failed _
  · split at h <;> cases h <;> exact .failed _

/-- Every end of a Trap that completes. -/
theorem trapEnd_of_exec (i : Instr) (s t : State) (hi : i.isTrap = true) (h : exec i s = .next t) : TrapEnd s i t := by
  cases i <;> first | exact Bool.noConfusion hi | skip
  case trapGetc => exact trapEnd_getc s t h
  case trapIn => exact trapEnd_in s t h
  case trapOut =>
    have h' : execTrapOut s = .next t := h
    unfold execTrapOut at h'
    rcases requests_cases [.write (lo8 (s.reg 0)), .flush] s with ⟨c, hr, -⟩ | ⟨c, k, hr, -⟩ <;> rw [hr] at h' <;> cases h'
    · exact .consoleOnly c (by decide)
    · exact .failed c
  case trapPuts =>
    obtain ⟨c, rfl | rfl⟩ := printString_next putsBytes s t h
    · exact .consoleOnly c (by decide)
    · exact .failed c
  case trapPutsp =>
    obtain ⟨c, rfl | rfl⟩ := printString_next putspBytes s t h
    · exact .consoleOnly c (by decide)
    · exact .failed c
  case trapHalt =>
    have h' : execTrapHalt s = .next t := h
    unfold execTrapHalt at h'
    rcases requests_cases (writesOf s.texts.haltNotice ++ [.terminate]) s with ⟨c, hr, -⟩ | ⟨c, k, hr, -⟩ <;>
      rw [hr] at h' <;> cases h'
    · exact .halted c
    · exact .failed c

end Sys2Proof.Machine
end

