-- ==== Sys2Proof/Laws/Opcodes.lean ====
section
/-! SUPPORT. The decoder one opcode at a time: what decode is on the words of that opcode (spec/30_encoding.md R89). -/

namespace Sys2Proof

/-- Every word has one of the sixteen opcodes. -/
theorem opcode_cases (o : BitVec 4) :
    o = 0x0#4 ∨ o = 0x1#4 ∨ o = 0x2#4 ∨ o = 0x3#4 ∨ o = 0x4#4 ∨ o = 0x5#4 ∨ o = 0x6#4 ∨ o = 0x7#4 ∨
    o = 0x8#4 ∨ o = 0x9#4 ∨ o = 0xA#4 ∨ o = 0xB#4 ∨ o = 0xC#4 ∨ o = 0xD#4 ∨ o = 0xE#4 ∨ o = 0xF#4 := by
  revert o; decide

theorem decode_opcode0 (w : Word) (h : opcodeOf w = 0x0#4) : decode w = .ok (.br (maskField w) (offset9Of w)) := by
  unfold decode; rw [h]; rfl

theorem decode_opcode1 (w : Word) (h : opcodeOf w = 0x1#4) :
    decode w = if immediateMode w then .ok (.addImm (regHigh w) (regMid w) (imm5Of w))
      else .ok (.addReg (regHigh w) (regMid w) (regLow w)) := by
  unfold decode; rw [h]; rfl

theorem decode_opcode2 (w : Word) (h : opcodeOf w = 0x2#4) : decode w = .ok (.ld (regHigh w) (offset9Of w)) := by
  unfold decode; rw [h]; rfl

theorem decode_opcode3 (w : Word) (h : opcodeOf w = 0x3#4) : decode w = .ok (.st (regHigh w) (offset9Of w)) := by
  unfold decode; rw [h]; rfl

theorem decode_opcode4 (w : Word) (h : opcodeOf w = 0x4#4) :
    decode w = if offsetMode w then .ok (.jsr (offset11Of w))
      else .ok (.jsrr (regMid w)) := by
  unfold decode; rw [h]; rfl

theorem decode_opcode5 (w : Word) (h : opcodeOf w = 0x5#4) :
    decode w = if immediateMode w then .ok (.andImm (regHigh w) (regMid w) (imm5Of w))
      else .ok (.andReg (regHigh w) (regMid w) (regLow w)) := by
  unfold decode; rw [h]; rfl

theorem decode_opcode6 (w : Word) (h : opcodeOf w = 0x6#4) : decode w = .ok (.ldr (regHigh w) (regMid w) (offset6Of w)) := by
  unfold decode; rw [h]; rfl

theorem decode_opcode7 (w : Word) (h : opcodeOf w = 0x7#4) : decode w = .ok (.str (regHigh w) (regMid w) (offset6Of w)) := by
  unfold decode; rw [h]; rfl

theorem decode_opcode8 (w : Word) (h : opcodeOf w = 0x8#4) : decode w = .error .unrecognizedOpcode := by
  unfold decode; rw [h]; rfl

theorem decode_opcode9 (w : Word) (h : opcodeOf w = 0x9#4) : decode w = .ok (.not (regHigh w) (regMid w)) := by
  unfold decode; rw [h]; rfl

theorem decode_opcodeA (w : Word) (h : opcodeOf w = 0xA#4) : decode w = .ok (.ldi (regHigh w) (offset9Of w)) := by
  unfold decode; rw [h]; rfl

theorem decode_opcodeB (w : Word) (h : opcodeOf w = 0xB#4) : decode w = .ok (.sti (regHigh w) (offset9Of w)) := by
  unfold decode; rw [h]; rfl

theorem decode_opcodeC (w : Word) (h : opcodeOf w = 0xC#4) : decode w = .ok (.jmp (regMid w)) := by
  unfold decode; rw [h]; rfl

theorem decode_opcodeD (w : Word) (h : opcodeOf w = 0xD#4) : decode w = .error .unrecognizedOpcode := by
  unfold decode; rw [h]; rfl

theorem decode_opcodeE (w : Word) (h : opcodeOf w = 0xE#4) : decode w = .ok (.lea (regHigh w) (offset9Of w)) := by
  unfold decode; rw [h]; rfl

theorem decode_opcodeF (w : Word) (h : opcodeOf w = 0xF#4) : decode w = decodeTrap (trapVector w) := by
  unfold decode; rw [h]; rfl

end Sys2Proof
end

