-- ==== Sys2Proof/Laws/PerInstr.lean ====
section
/-! SUPPORT. Facts for all instructions, one lemma for each constructor: the opcode of an instruction's word is its family's
(spec/30_encoding.md R73, R95). -/

namespace Sys2Proof.Laws.EncodeOpcode

/-- The opcode of an instruction's family, in the order of the constructors (R73). -/
def opcodeFor : Instr → BitVec 4
  | .addReg _ _ _ => 0b0001#4
  | .addImm _ _ _ => 0b0001#4
  | .andReg _ _ _ => 0b0101#4
  | .andImm _ _ _ => 0b0101#4
  | .not _ _ => 0b1001#4
  | .br _ _ => 0b0000#4
  | .jmp _ => 0b1100#4
  | .jsr _ => 0b0100#4
  | .jsrr _ => 0b0100#4
  | .ld _ _ => 0b0010#4
  | .ldi _ _ => 0b1010#4
  | .ldr _ _ _ => 0b0110#4
  | .lea _ _ => 0b1110#4
  | .st _ _ => 0b0011#4
  | .sti _ _ => 0b1011#4
  | .str _ _ _ => 0b0111#4
  | .trapGetc => 0b1111#4
  | .trapOut => 0b1111#4
  | .trapPuts => 0b1111#4
  | .trapIn => 0b1111#4
  | .trapPutsp => 0b1111#4
  | .trapHalt => 0b1111#4

/-- The encoder writes the family's opcode (R95). -/
def Statement (i : Instr) : Prop := opcodeOf (encode i) = opcodeFor i

theorem addReg (dr sr1 sr2 : Reg) : Statement (.addReg dr sr1 sr2) := by
  rw [Statement, encode, reassoc_operateReg, reassoc_operate]; exact opcodeOf_reg6 ..

theorem addImm (dr sr1 : Reg) (imm : Word) : Statement (.addImm dr sr1 imm) := by
  rw [Statement, encode, reassoc_operate]; exact opcodeOf_reg6 ..

theorem andReg (dr sr1 sr2 : Reg) : Statement (.andReg dr sr1 sr2) := by
  rw [Statement, encode, reassoc_operateReg, reassoc_operate]; exact opcodeOf_reg6 ..

theorem andImm (dr sr1 : Reg) (imm : Word) : Statement (.andImm dr sr1 imm) := by
  rw [Statement, encode, reassoc_operate]; exact opcodeOf_reg6 ..

theorem not (dr sr : Reg) : Statement (.not dr sr) := opcodeOf_reg6 ..

theorem br (nzp : BitVec 3) (off : Word) : Statement (.br nzp off) := opcodeOf_reg9 ..

theorem jmp (baseR : Reg) : Statement (.jmp baseR) := opcodeOf_reg6 ..

theorem jsr (off : Word) : Statement (.jsr off) := opcodeOf_jsr ..

theorem jsrr (baseR : Reg) : Statement (.jsrr baseR) := by
  rw [Statement, encode, reassoc_jsrr]; exact opcodeOf_jsr ..

theorem ld (dr : Reg) (off : Word) : Statement (.ld dr off) := opcodeOf_reg9 ..

theorem ldi (dr : Reg) (off : Word) : Statement (.ldi dr off) := opcodeOf_reg9 ..

theorem ldr (dr baseR : Reg) (off : Word) : Statement (.ldr dr baseR off) := opcodeOf_reg6 ..

theorem lea (dr : Reg) (off : Word) : Statement (.lea dr off) := opcodeOf_reg9 ..

theorem st (sr : Reg) (off : Word) : Statement (.st sr off) := opcodeOf_reg9 ..

theorem sti (sr : Reg) (off : Word) : Statement (.sti sr off) := opcodeOf_reg9 ..

theorem str (sr baseR : Reg) (off : Word) : Statement (.str sr baseR off) := opcodeOf_reg6 ..

theorem trapGetc : Statement .trapGetc := opcodeOf_trap 0xF#4 0#4 0x20#8

theorem trapOut : Statement .trapOut := opcodeOf_trap 0xF#4 0#4 0x21#8

theorem trapPuts : Statement .trapPuts := opcodeOf_trap 0xF#4 0#4 0x22#8

theorem trapIn : Statement .trapIn := opcodeOf_trap 0xF#4 0#4 0x23#8

theorem trapPutsp : Statement .trapPutsp := opcodeOf_trap 0xF#4 0#4 0x24#8

theorem trapHalt : Statement .trapHalt := opcodeOf_trap 0xF#4 0#4 0x25#8

end Sys2Proof.Laws.EncodeOpcode
end

