-- ==== Sys2Proof/Tests/Slice0.lean ====
section
/-! SUPPORT. The model's own tests. Expected results come from spec/95_test_vectors.md or are worked out by hand from the rules
named; words are written out from the formats of spec/30_encoding.md. After them, for every statement that has hypotheses, a
state and operands that meet them. -/

namespace Sys2Proof.Tests

open Sys2Proof Sys2Proof.Machine Sys2Proof.Machine.Console

/-! ## A term that each check of WellFormed refuses, beside the extreme values it takes (R96) -/

theorem test_wf_addImm : Instr.wf (.addImm 0 0 16) = false ∧ Instr.wf (.addImm 0 0 0xFFEF) = false ∧
    Instr.wf (.addImm 0 0 15) = true ∧ Instr.wf (.addImm 0 0 0xFFF0) = true := by decide
theorem test_wf_andImm : Instr.wf (.andImm 0 0 16) = false ∧ Instr.wf (.andImm 0 0 0xFFEF) = false ∧
    Instr.wf (.andImm 0 0 15) = true ∧ Instr.wf (.andImm 0 0 0xFFF0) = true := by decide
theorem test_wf_br : Instr.wf (.br 7 256) = false ∧ Instr.wf (.br 7 0xFEFF) = false ∧
    Instr.wf (.br 7 255) = true ∧ Instr.wf (.br 7 0xFF00) = true := by decide
theorem test_wf_jsr : Instr.wf (.jsr 1024) = false ∧ Instr.wf (.jsr 0xFBFF) = false ∧
    Instr.wf (.jsr 1023) = true ∧ Instr.wf (.jsr 0xFC00) = true := by decide
theorem test_wf_ld : Instr.wf (.ld 0 256) = false ∧ Instr.wf (.ld 0 0xFEFF) = false ∧
    Instr.wf (.ld 0 255) = true ∧ Instr.wf (.ld 0 0xFF00) = true := by decide
theorem test_wf_ldi : Instr.wf (.ldi 0 256) = false ∧ Instr.wf (.ldi 0 0xFEFF) = false := by decide
theorem test_wf_lea : Instr.wf (.lea 0 256) = false ∧ Instr.wf (.lea 0 0xFEFF) = false := by decide
theorem test_wf_st : Instr.wf (.st 0 256) = false ∧ Instr.wf (.st 0 0xFEFF) = false := by decide
theorem test_wf_sti : Instr.wf (.sti 0 256) = false ∧ Instr.wf (.sti 0 0xFEFF) = false := by decide
theorem test_wf_ldr : Instr.wf (.ldr 0 0 32) = false ∧ Instr.wf (.ldr 0 0 0xFFDF) = false ∧
    Instr.wf (.ldr 0 0 31) = true ∧ Instr.wf (.ldr 0 0 0xFFE0) = true := by decide
theorem test_wf_str : Instr.wf (.str 0 0 32) = false ∧ Instr.wf (.str 0 0 0xFFDF) = false := by decide

/-! ## A word of each instruction, bit by bit from its format (R76 to R86) -/

/-- 0001, dr 011, sr1 001, 0, 00, sr2 010 (R76). -/
theorem test_decode_addReg : decode 0b0001_011_001_0_00_010#16 = .ok (.addReg 3 1 2) := by decide
/-- 0001, dr 101, sr1 110, 1, imm5 10000, which is -16 (R77). -/
theorem test_decode_addImm : decode 0b0001_101_110_1_10000#16 = .ok (.addImm 5 6 0xFFF0) := by decide
/-- 0101, dr 100, sr1 111, 0, 00, sr2 001 (R76). -/
theorem test_decode_andReg : decode 0b0101_100_111_0_00_001#16 = .ok (.andReg 4 7 1) := by decide
/-- 0101, dr 001, sr1 010, 1, imm5 01111, which is 15 (R77). -/
theorem test_decode_andImm : decode 0b0101_001_010_1_01111#16 = .ok (.andImm 1 2 15) := by decide
/-- 1001, dr 100, sr 101, 111111 (R78). -/
theorem test_decode_not : decode 0b1001_100_101_111111#16 = .ok (.not 4 5) := by decide
/-- 0000, n 1, z 0, p 0, offset9 100000000, which is -256 (R84). -/
theorem test_decode_br : decode 0b0000_1_0_0_100000000#16 = .ok (.br 0b100#3 0xFF00) := by decide
/-- 1100, 000, base_r 110, 000000 (R81). -/
theorem test_decode_jmp : decode 0b1100_000_110_000000#16 = .ok (.jmp 6) := by decide
/-- 0100, 1, offset11 01111111111, which is 1023 (R82). -/
theorem test_decode_jsr : decode 0b0100_1_01111111111#16 = .ok (.jsr 1023) := by decide
/-- 0100, 0, 00, base_r 011, 000000 (R83). -/
theorem test_decode_jsrr : decode 0b0100_0_00_011_000000#16 = .ok (.jsrr 3) := by decide
/-- 0010, dr 001, offset9 000000101 (R79). -/
theorem test_decode_ld : decode 0b0010_001_000000101#16 = .ok (.ld 1 5) := by decide
/-- 1010, dr 010, offset9 111111110, which is -2 (R79). -/
theorem test_decode_ldi : decode 0b1010_010_111111110#16 = .ok (.ldi 2 0xFFFE) := by decide
/-- 0110, dr 011, base_r 100, offset6 100000, which is -32 (R80). -/
theorem test_decode_ldr : decode 0b0110_011_100_100000#16 = .ok (.ldr 3 4 0xFFE0) := by decide
/-- 1110, dr 101, offset9 011111111, which is 255 (R79). -/
theorem test_decode_lea : decode 0b1110_101_011111111#16 = .ok (.lea 5 255) := by decide
/-- 0011, sr 110, offset9 000000001 (R79). -/
theorem test_decode_st : decode 0b0011_110_000000001#16 = .ok (.st 6 1) := by decide
/-- 1011, sr 111, offset9 111111111, which is -1 (R79). -/
theorem test_decode_sti : decode 0b1011_111_111111111#16 = .ok (.sti 7 0xFFFF) := by decide
/-- 0111, sr 010, base_r 011, offset6 011111, which is 31 (R80). -/
theorem test_decode_str : decode 0b0111_010_011_011111#16 = .ok (.str 2 3 31) := by decide
/-- 1111, 0000, 00100000 (R85, R86). -/
theorem test_decode_getc : decode 0b1111_0000_00100000#16 = .ok .trapGetc := by decide
/-- 1111, 0000, 00100001 (R85, R86). -/
theorem test_decode_out : decode 0b1111_0000_00100001#16 = .ok .trapOut := by decide
/-- 1111, 0000, 00100010 (R85, R86). -/
theorem test_decode_puts : decode 0b1111_0000_00100010#16 = .ok .trapPuts := by decide
/-- 1111, 0000, 00100011 (R85, R86). -/
theorem test_decode_in : decode 0b1111_0000_00100011#16 = .ok .trapIn := by decide
/-- 1111, 0000, 00100100 (R85, R86). -/
theorem test_decode_putsp : decode 0b1111_0000_00100100#16 = .ok .trapPutsp := by decide
/-- 1111, 0000, 00100101 (R85, R86). -/
theorem test_decode_halt : decode 0b1111_0000_00100101#16 = .ok .trapHalt := by decide
/-- 95_test_vectors.md 2.1, the rejected words, and the boundaries of the six codes (R90, R91). -/
theorem test_decode_rejects :
    decode 0x8FFF = .error .unrecognizedOpcode ∧ decode 0xDFFF = .error .unrecognizedOpcode ∧
    decode 0xF01F = .error .unrecognizedTrapCode ∧ decode 0xFFFF = .error .unrecognizedTrapCode := by decide
/-- The host's reading of a table word: all 16 bits, or nothing. -/
theorem test_tableWord : decodeTableWord 16 0x1642 = some (.addReg 3 1 2) ∧ decodeTableWord 16 0x8000 = none := by decide

/-! ## One step (95_test_vectors.md 2.2 to 2.8) -/

/-- The common start state of 95_test_vectors.md Part 3, with the texts of 2.7. -/
def start : State := State.construct (Vector.replicate 8 0) .z [] { inPrompt := [0x3E], haltNotice := [] } Console.fresh

/-- The start state with these registers and memory words, this flag and this console. -/
def scene (regs : List (Reg × Word)) (words : List (Word × Word)) (cond : Flag) (console : Console) : State :=
  { words.foldl (fun s x => s.writeMem x.1 x.2) (regs.foldl (fun s x => s.setReg x.1 x.2) start) with
    cond := cond, console := console }

/-- A console that gives these answers. -/
def answers (reads : List ReadAnswer) (acks : List Ack) : Console := { Console.fresh with reads := reads, acks := acks }

/-- A console that answers done to the next writes, flushes and signals. -/
def willing : Console := answers [.byte 0x41] [.done, .done, .done, .done]

/-- The result is a next state of which p holds. -/
def nextHas (r : Result) (p : State → Bool) : Bool :=
  match r with
  | .next t => p t
  | .fault _ => false
  | .refused _ => false

/-- Register d, the flag and pc after the step. -/
def holds (d : Reg) (v : Word) (c : Flag) (pc : Word) (t : State) : Bool := t.reg d == v && t.cond == c && t.pc == pc

/-- S3. -/
theorem test_addReg_wraps : nextHas (step (scene [(1, 0xFFFF), (2, 0xFFFF)] [(0x3000, 0x1642)] .z willing))
    (holds 3 0xFFFE .n 0x3001) = true := by decide
/-- 2.3: the same register three times. -/
theorem test_addReg_same : nextHas (step (scene [(1, 0x4000)] [(0x3000, 0x1241)] .z willing))
    (holds 1 0x8000 .n 0x3001) = true := by decide
/-- 2.3: signed overflow. -/
theorem test_addImm_overflow : nextHas (step (scene [(0, 0x7FFF)] [(0x3000, 0x1021)] .z willing))
    (holds 0 0x8000 .n 0x3001) = true := by decide
/-- 2.3: the immediate -16. -/
theorem test_addImm_negative : nextHas (step (scene [] [(0x3000, 0x1030)] .z willing))
    (holds 0 0xFFF0 .n 0x3001) = true := by decide
/-- 2.3. -/
theorem test_andReg : nextHas (step (scene [(1, 0x8000), (2, 0xFFFF)] [(0x3000, 0x5042)] .z willing))
    (holds 0 0x8000 .n 0x3001) = true := by decide
/-- 2.3: ignored bits set. -/
theorem test_andReg_ignored : nextHas (step (scene [(0, 0x1234)] [(0x3000, 0x5018)] .z willing))
    (holds 0 0x1234 .p 0x3001) = true := by decide
/-- 2.3: the immediate is sign-extended. -/
theorem test_andImm : nextHas (step (scene [(1, 0xABCD)] [(0x3000, 0x5270)] .z willing))
    (holds 1 0xABC0 .n 0x3001) = true := by decide
/-- 2.3. -/
theorem test_andImm_clears : nextHas (step (scene [(2, 0xABCD)] [(0x3000, 0x54A0)] .n willing))
    (holds 2 0 .z 0x3001) = true := by decide
/-- 2.3. -/
theorem test_not : nextHas (step (scene [(0, 0x8000)] [(0x3000, 0x903F)] .z willing)) (holds 0 0x7FFF .p 0x3001) = true := by
  decide
/-- 2.3: non-canonical word. -/
theorem test_not_noncanonical : nextHas (step (scene [(0, 0x00FF)] [(0x3000, 0x9000)] .z willing))
    (holds 0 0xFF00 .n 0x3001) = true := by decide
/-- S5 and S6. -/
theorem test_br_gating : nextHas (step (scene [] [(0x3000, 0x020A)] .p willing)) (holds 0 0 .p 0x300B) = true ∧
    nextHas (step (scene [] [(0x3000, 0x020A)] .n willing)) (holds 0 0 .n 0x3001) = true := by decide
/-- 2.4: the incremented pc wraps, then the offset is added. -/
theorem test_br_wraps : nextHas (step { scene [] [(0xFFFF, 0x0E01)] .p willing with pc := 0xFFFF }) (holds 0 0 .p 1) = true := by
  decide
/-- 2.5: ignored bits set, flag kept. -/
theorem test_jmp : nextHas (step (scene [(7, 0x1234)] [(0x3000, 0xCFFF)] .n willing)) (holds 7 0x1234 .n 0x1234) = true := by
  decide
/-- S7, with the flag of 90_conflicts.md C4. -/
theorem test_jsr : nextHas (step (scene [] [(0x3000, 0x480A)] .z willing)) (holds 7 0x3001 .p 0x300B) = true := by decide
/-- 2.5: the link is zero after the wrap. -/
theorem test_jsr_wraps : nextHas (step { scene [] [(0xFFFF, 0x4801)] .p willing with pc := 0xFFFF }) (holds 7 0 .z 1) = true := by
  decide
/-- 2.5. -/
theorem test_jsrr : nextHas (step (scene [(3, 0x5000)] [(0x3000, 0x40C0)] .z willing)) (holds 7 0x3001 .p 0x5000) = true := by
  decide
/-- 2.5: JSRR R7 reads the link it has just written. -/
theorem test_jsrr_r7 : nextHas (step (scene [(7, 0x5000)] [(0x3000, 0x41C0)] .z willing)) (holds 7 0x3001 .p 0x3001) = true := by
  decide
/-- 2.6: its own word. -/
theorem test_ld_own : nextHas (step (scene [] [(0x3000, 0x23FF)] .z willing)) (holds 1 0x23FF .p 0x3001) = true := by decide
/-- 2.6: the farthest word back. -/
theorem test_ld_back : nextHas (step (scene [] [(0x2F01, 0x7777), (0x3000, 0x2300)] .z willing))
    (holds 1 0x7777 .p 0x3001) = true := by decide
/-- S8. -/
theorem test_ldi : nextHas (step (scene [] [(0x3000, 0xA40A), (0x300B, 0xFFFE), (0xFFFE, 17)] .z willing))
    (holds 2 17 .p 0x3001) = true := by decide
/-- 2.6: the destination is the base. -/
theorem test_ldr_base : nextHas (step (scene [(1, 0x4000)] [(0x3000, 0x6240), (0x4000, 0x1234)] .z willing))
    (holds 1 0x1234 .p 0x3001) = true := by decide
/-- 2.6: the address wraps. -/
theorem test_ldr_wraps : nextHas (step (scene [(2, 0xFFFF)] [(0, 0x8888), (0x3000, 0x6281)] .z willing))
    (holds 1 0x8888 .n 0x3001) = true := by decide
/-- 2.6. -/
theorem test_lea : nextHas (step (scene [] [(0x3000, 0xEBFE)] .z willing)) (holds 5 0x2FFF .p 0x3001) = true := by decide
/-- 2.6: the flag is that of the address. -/
theorem test_lea_flag : nextHas (step { scene [] [(0x7FFF, 0xE200)] .z willing with pc := 0x7FFF })
    (holds 1 0x8000 .n 0x8000) = true := by decide
/-- 2.6: the flag is kept. -/
theorem test_st : nextHas (step (scene [(0, 0x1234)] [(0x3000, 0x3003)] .n willing))
    (fun t => t.readMem 0x3004 == 0x1234 && t.cond == .n && t.pc == 0x3001) = true := by decide
/-- P6: the stored word is fetched next. -/
theorem test_st_next : nextHas (step (scene [(0, 0xF025)] [(0x3000, 0x3000)] .z willing))
    (fun t => t.fetchWord == 0xF025) = true := by decide
/-- 2.6: the pointer is overwritten. -/
theorem test_sti_pointer : nextHas (step (scene [(1, 0xBEEF)] [(0x3000, 0xB200), (0x3001, 0x3001)] .z willing))
    (fun t => t.readMem 0x3001 == 0xBEEF) = true := by decide
/-- 2.6. -/
theorem test_sti : nextHas (step (scene [(1, 0xBEEF)] [(0x3000, 0xB201), (0x3002, 0x5000)] .z willing))
    (fun t => t.readMem 0x5000 == 0xBEEF && t.readMem 0x3002 == 0x5000) = true := by decide
/-- 2.6: the address wraps. -/
theorem test_str_wraps : nextHas (step (scene [(1, 0x0010)] [(0x3000, 0x7260)] .z willing))
    (fun t => t.readMem 0xFFF0 == 0x0010) = true := by decide
/-- 2.6. -/
theorem test_str : nextHas (step (scene [(2, 7), (3, 0x4000)] [(0x3000, 0x74C4)] .z willing))
    (fun t => t.readMem 0x4004 == 7 && t.reg 2 == 7) = true := by decide
/-- 2.7: zero extension. -/
theorem test_getc : nextHas (step (scene [] [(0x3000, 0xF020)] .z (answers [.byte 0xFF] [])))
    (fun t => holds 0 0x00FF .p 0x3001 t && t.console.events == [.read 0xFF]) = true := by decide
/-- 2.7: failure. -/
theorem test_getc_fails : nextHas (step (scene [(0, 5)] [(0x3000, 0xF020)] .p (answers [.failure] [])))
    (fun t => holds 0 5 .p 0x3001 t && t.fault == some { cause := .ioFailure, word := 0xF020, address := 0x3000 }) = true := by
  decide
/-- 2.7. -/
theorem test_in : nextHas (step (scene [] [(0x3000, 0xF023)] .z (answers [.byte 0x0A] [.done, .done])))
    (fun t => holds 0 0x000A .p 0x3001 t && t.console.events == [.write 0x3E, .read 0x0A, .flush]) = true := by decide
/-- 2.7. -/
theorem test_out : nextHas (step (scene [(0, 0x1248)] [(0x3000, 0xF021)] .n willing))
    (fun t => holds 0 0x1248 .n 0x3001 t && t.console.events == [.write 0x48, .flush]) = true := by decide
/-- 2.7. -/
theorem test_puts : nextHas (step (scene [(0, 0x3005)] [(0x3000, 0xF022), (0x3005, 0x0048), (0x3006, 0x0069)] .p willing))
    (fun t => holds 0 0x3005 .p 0x3001 t && t.console.events == [.write 0x48, .write 0x69, .flush]) = true := by decide
/-- R180: after the listed answer, a run of one done answer and then a failure, which is IoFailure after the two writes. -/
theorem test_puts_fails : nextHas (step (scene [(0, 0x3005)] [(0x3000, 0xF022), (0x3005, 0x0048), (0x3006, 0x0069)] .p
    { answers [] [.done] with doneRun := some 1 }))
    (fun t => t.console.events == [.write 0x48, .write 0x69] &&
      t.fault == some { cause := .ioFailure, word := 0xF022, address := 0x3000 }) = true := by decide
/-- 2.7: low byte first, and no zero high byte. -/
theorem test_putsp : nextHas (step (scene [(0, 0x4000)] [(0x3000, 0xF024), (0x4000, 0x6948), (0x4001, 0x0021)] .p willing))
    (fun t => t.console.events == [.write 0x48, .write 0x69, .write 0x21, .flush]) = true := by decide
/-- 2.7. -/
theorem test_halt : nextHas (step { scene [] [(0x3005, 0xF025)] .p willing with pc := 0x3005, running := true })
    (fun t => t.console.events == [.terminate] && t.running == false && t.pc == 0x3006 && t.fault == none) = true := by decide
/-- 2.8. -/
theorem test_fault_opcode : nextHas (step { scene [] [(0x3000, 0x8FFF)] .p willing with running := true })
    (fun t => t.fault == some { cause := .unrecognizedOpcode, word := 0x8FFF, address := 0x3000 } && t.pc == 0x3001 &&
      t.running) = true := by decide
/-- 2.8. -/
theorem test_fault_trapCode : nextHas (step (scene [] [(0x3000, 0xFFFF)] .p willing))
    (fun t => t.fault == some { cause := .unrecognizedTrapCode, word := 0xFFFF, address := 0x3000 }) = true := by decide
/-- 2.2. -/
theorem test_flags : flagOf 0 = .z ∧ flagOf 1 = .p ∧ flagOf 0x7FFF = .p ∧ flagOf 0x8000 = .n ∧ flagOf 0xFFFF = .n := by decide
/-- The word placed for the host runs as the first instruction after reset. -/
theorem test_withFetchWord : nextHas (step (State.reset.withFetchWord 16 0x1021)) (holds 0 1 .p 0x3001) = true := by decide

/-! ## The hypotheses of the statements can be met -/

/-- The step of s answers some state. -/
def steps (s : State) : Prop := ∃ t, step s = .next t

/-- What nextHas finds is a next state. -/
theorem exists_of_nextHas {r : Result} {p : State → Bool} (h : nextHas r p = true) : ∃ t, r = .next t ∧ p t = true := by
  cases r with
  | next t => exact ⟨t, rfl, h⟩
  | fault f => cases h
  | refused f => cases h

theorem inv_of_noFault {s : State} (hm : Memory.wf s.mem = true) (hf : s.fault = none) : State.Inv s :=
  ⟨hm, fun r h => by rw [hf] at h; cases h⟩

theorem acksDone_of_all {c : Console} {n : Nat} (h : (List.range n).all (fun k => c.ackAt k == .done) = true) :
    c.acksDone n := by
  intro k hk
  have := List.all_eq_true.1 h k (List.mem_range.2 hk)
  exact eq_of_beq this

theorem witness_ConstructionSetsEveryField : 0 < 8 ∧ 7 < 8 := by decide

theorem witness_ResetMeetsInvariant : Memory.wf [(0, 0xFFFF), (0x3000, 0x1021), (65535, 1)] = true := by decide

theorem witness_StepKeepsInvariant :
    (∃ s t, State.Inv s ∧ step s = .next t ∧ t.fault = none) ∧ (∃ s t, State.Inv s ∧ step s = .next t ∧ t.fault ≠ none) := by
  refine ⟨⟨scene [] [(0x3000, 0x1021)] .z willing, ?_⟩, ⟨scene [] [(0x3000, 0xD000)] .z willing, ?_⟩⟩
  · obtain ⟨t, h, hf⟩ := exists_of_nextHas (r := step (scene [] [(0x3000, 0x1021)] .z willing))
      (p := fun t => t.fault == none) (by decide)
    exact ⟨t, inv_of_noFault (by decide) rfl, h, eq_of_beq hf⟩
  · obtain ⟨t, h, hf⟩ := exists_of_nextHas (r := step (scene [] [(0x3000, 0xD000)] .z willing))
      (p := fun t => t.fault != none) (by decide)
    exact ⟨t, inv_of_noFault (by decide) rfl, h, by simpa using hf⟩

theorem witness_DecodeOfEncodeIsIdentity : Instr.wf (.addImm 7 7 0xFFF0) = true ∧ Instr.wf (.andImm 0 7 15) = true ∧
    Instr.wf (.br 0 0xFF00) = true ∧ Instr.wf (.lea 7 255) = true ∧ Instr.wf (.ldr 7 7 0xFFE0) = true ∧
    Instr.wf (.str 0 0 31) = true ∧ Instr.wf (.jsr 0xFC00) = true ∧ Instr.wf (.jsr 1023) = true := by decide

theorem witness_EncodeOfDecodeIsIdentity :
    (decode 0x903F = .ok (.not 0 0) ∧ isCanonical 0x903F = true) ∧
    (decode 0xC1C0 = .ok (.jmp 7) ∧ isCanonical 0xC1C0 = true) := by decide

theorem witness_IgnoredBitsDoNotMatter :
    (0x9000 : Word) &&& ~~~(ignoredMask 0x903F) = 0x903F &&& ~~~(ignoredMask 0x903F) ∧
    (0xCFFF : Word) &&& ~~~(ignoredMask 0xC1C0) = 0xC1C0 &&& ~~~(ignoredMask 0xC1C0) ∧
    (0xFF25 : Word) &&& ~~~(ignoredMask 0xF025) = 0xF025 &&& ~~~(ignoredMask 0xF025) := by decide

theorem witness_RejectedWordsFault :
    (∃ s : State, s.fault = none ∧ decode (s.readMem s.pc) = .error .unrecognizedOpcode) ∧
    (∃ s : State, s.fault = none ∧ decode (s.readMem s.pc) = .error .unrecognizedTrapCode) :=
  ⟨⟨scene [] [(0x3000, 0x8000)] .z willing, by decide⟩, ⟨scene [] [(0x3000, 0xF026)] .z willing, by decide⟩⟩

theorem witness_TrapFormats : (0x1F#8 ∉ [0x20#8, 0x21#8, 0x22#8, 0x23#8, 0x24#8, 0x25#8]) ∧
    (0x26#8 ∉ [0x20#8, 0x21#8, 0x22#8, 0x23#8, 0x24#8, 0x25#8]) := by decide

theorem witness_DecodedOperandsFit : decode 0x1030 = .ok (.addImm 0 0 0xFFF0) ∧ decode 0x62A0 = .ok (.ldr 1 2 0xFFE0) := by
  decide

theorem witness_AssemblerRefusesWhatDoesNotFit :
    assemble 0x3000 (.add 7 0 (.reg 7)) = some (.addReg 7 0 7) ∧ assemble 0x3000 (.add 0 0 (.reg 8)) = none ∧
    assemble 0x3000 (.add 0 1 (.num (-16))) = some (.addImm 0 1 0xFFF0) ∧ assemble 0x3000 (.add 0 1 (.num (-17))) = none ∧
    assemble 0x3000 (.and 0 1 (.num 15)) = some (.andImm 0 1 15) ∧ assemble 0x3000 (.and 0 1 (.num 16)) = none ∧
    assemble 0x3000 (.not 7 7) = some (.not 7 7) ∧ assemble 0x3000 (.jmp 8) = none ∧
    assemble 0x3000 (.ldr 0 7 (-32)) = some (.ldr 0 7 0xFFE0) ∧ assemble 0x3000 (.ldr 0 7 (-33)) = none ∧
    assemble 0x3000 (.str 0 7 31) = some (.str 0 7 31) ∧ assemble 0x3000 (.str 0 7 32) = none ∧
    assemble 0x3000 (.trap 0x25) = some .trapHalt ∧ assemble 0x3000 (.trap 0x26) = none ∧
    (AsmLine.st 7 0x3100, Instr.st) ∈ [(AsmLine.st 7 0x3100, Instr.st), (AsmLine.sti 7 0x3100, Instr.sti)] ∧
    assemble 0x3000 (.st 7 0x3100) = some (.st 7 255) ∧ assemble 0x3000 (.st 8 0x3100) = none ∧
    assemble 0x3000 (.st 7 0x3101) = none := by
  refine ⟨by decide, by decide, by decide, by decide, by decide, by decide, by decide, by decide, by decide, by decide, by decide,
    by decide, by decide, by decide, List.mem_cons_self .., by decide, by decide, by decide⟩

theorem witness_AssemblyTextIsRead : ∃ table : LabelTable, table = [(['E', 'N', 'D'], 0x3005)] := ⟨_, rfl⟩

theorem witness_LabelsBecomeOffsets :
    assemble 0x3000 (.ld 1 0x2F01) = some (.ld 1 0xFF00) ∧ assemble 0x3000 (.ld 1 0x2F00) = none ∧
    assemble 0x3000 (.br true false true 0x3100) = some (.br 0b101#3 255) ∧
    assemble 0x3000 (.br true false true 0x3101) = none ∧
    assemble 0x3000 (.jsr 0x2C01) = some (.jsr 0xFC00) ∧ assemble 0x3000 (.jsr 0x2C00) = none ∧
    (AsmLine.lea 5 0x3001, Instr.lea 5) ∈ [(AsmLine.ld 5 0x3001, Instr.ld 5), (AsmLine.lea 5 0x3001, Instr.lea 5)] := by
  refine ⟨by decide, by decide, by decide, by decide, by decide, by decide, ?_⟩
  exact List.mem_cons_of_mem _ (List.mem_cons_self ..)

theorem witness_StepRunsTheDecodedInstruction :
    (∃ s : State, s.fault = none ∧ decode (s.readMem s.pc) = .ok (.addImm 0 0 1)) ∧
    (∃ s : State, s.fault = none ∧ decode (s.readMem s.pc) = .error .unrecognizedOpcode) :=
  ⟨⟨scene [] [(0x3000, 0x1021)] .z willing, by decide⟩, ⟨scene [] [(0x3000, 0xD000)] .z willing, by decide⟩⟩

theorem witness_DecodeFaultChangesNothingElse :
    (∃ s : State, s.fault = none ∧ decode (s.readMem s.pc) = .error .unrecognizedOpcode) ∧
    (∃ s : State, s.fault = none ∧ decode (s.readMem s.pc) = .error .unrecognizedTrapCode) :=
  ⟨⟨scene [] [(0x3000, 0x8FFF)] .z willing, by decide⟩, ⟨scene [] [(0x3000, 0xF000)] .z willing, by decide⟩⟩

/-- A core in the faulted state. -/
def faulted : State :=
  { scene [] [(0x3000, 0xD000)] .z willing with
    pc := 0x3001, fault := some { cause := .unrecognizedOpcode, word := 0xD000, address := 0x3000 } }

theorem witness_FaultedCoreTakesNoStep : ∃ r, faulted.fault = some r := ⟨_, rfl⟩

theorem witness_FaultCausesAreExact : ∀ c : FaultCause, ∃ s t r, s.fault = none ∧ step s = .next t ∧ t.fault = some r ∧
    r.cause = c := by
  have from_step : ∀ (s : State) (r : FaultRecord), s.fault = none →
      nextHas (step s) (fun t => t.fault == some r) = true →
      ∃ s t q, s.fault = none ∧ step s = .next t ∧ t.fault = some q ∧ q.cause = r.cause := by
    intro s r hf h
    obtain ⟨t, ht, hr⟩ := exists_of_nextHas h
    exact ⟨s, t, r, hf, ht, eq_of_beq hr, rfl⟩
  intro c
  cases c with
  | unrecognizedOpcode =>
    exact from_step (scene [] [(0x3000, 0x8000)] .z willing)
      { cause := .unrecognizedOpcode, word := 0x8000, address := 0x3000 } rfl (by decide)
  | unrecognizedTrapCode =>
    exact from_step (scene [] [(0x3000, 0xF01F)] .z willing)
      { cause := .unrecognizedTrapCode, word := 0xF01F, address := 0x3000 } rfl (by decide)
  | ioFailure =>
    exact from_step (scene [] [(0x3000, 0xF021)] .z (answers [] [.failure]))
      { cause := .ioFailure, word := 0xF021, address := 0x3000 } rfl (by decide)

theorem witness_StartSetsRunning : start.fault = none ∧ faulted.fault ≠ none := by decide

theorem witness_LoopEndsOnlyByHaltOrFault :
    (∃ s t, s.running = true ∧ s.fault = none ∧ step s = .next t ∧ t.looping = true) ∧
    (∃ s t, s.running = true ∧ s.fault = none ∧ step s = .next t ∧ t.looping = false ∧ t.fault = none) ∧
    (∃ s t, s.running = true ∧ s.fault = none ∧ step s = .next t ∧ t.looping = false ∧ t.fault ≠ none) ∧
    start.running = false ∧ faulted.fault ≠ none := by
  refine ⟨⟨{ scene [] [(0x3000, 0x1021)] .z willing with running := true }, ?_⟩,
    ⟨{ scene [] [(0x3000, 0xF025)] .z willing with running := true }, ?_⟩,
    ⟨{ scene [] [(0x3000, 0xD000)] .z willing with running := true }, ?_⟩, rfl, by decide⟩
  · obtain ⟨t, h, hp⟩ := exists_of_nextHas (r := step { scene [] [(0x3000, 0x1021)] .z willing with running := true })
      (p := fun t => t.looping) (by decide)
    exact ⟨t, rfl, rfl, h, hp⟩
  · obtain ⟨t, h, hp⟩ := exists_of_nextHas (r := step { scene [] [(0x3000, 0xF025)] .z willing with running := true })
      (p := fun t => decide (t.looping = false ∧ t.fault = none)) (by decide)
    exact ⟨t, rfl, rfl, h, of_decide_eq_true hp⟩
  · obtain ⟨t, h, hp⟩ := exists_of_nextHas (r := step { scene [] [(0x3000, 0xD000)] .z willing with running := true })
      (p := fun t => decide (t.looping = false ∧ t.fault ≠ none)) (by decide)
    exact ⟨t, rfl, rfl, h, of_decide_eq_true hp⟩

/-- A state whose Trap In finds no answer to its read. -/
def unanswered : State := scene [] [(0x3000, 0xF020)] .z { Console.fresh with silent := true, acks := [.done] }

theorem witness_StepDoesNotReadRunning : start.fault = none ∧ (∃ s t, step s = .next t) ∧ (∃ s f, step s = .fault f) :=
  ⟨rfl, ⟨start, _, rfl⟩, ⟨unanswered, .consoleHold, rfl⟩⟩

theorem witness_OnlyBranchReadsCond :
    (∃ (i : Instr) (s t : State), (∀ m o, i ≠ .br m o) ∧ exec i s = .next t) ∧
    (∃ (i : Instr) (s : State) (f : Fault), (∀ m o, i ≠ .br m o) ∧ exec i s = .fault f) :=
  ⟨⟨.addImm 0 0 1, start, _, fun _ _ h => (by cases h), rfl⟩,
    ⟨.trapGetc, unanswered, .consoleHold, fun _ _ h => (by cases h), rfl⟩⟩

theorem witness_SubtractIdiom : (0 : Reg) ≠ 1 := by decide

theorem witness_ReturnGoesAfterTheCall :
    (∃ (s t u : State) (i : Instr), (∃ off, i = .jsr off) ∧ exec i s = .next t ∧ u.reg 7 = t.reg 7) ∧
    (∃ (s t u : State) (i : Instr), (∃ b, i = .jsrr b) ∧ exec i s = .next t ∧ u.reg 7 = t.reg 7) :=
  ⟨⟨start, _, _, .jsr 5, ⟨5, rfl⟩, rfl, rfl⟩, ⟨start, _, _, .jsrr 7, ⟨7, rfl⟩, rfl, rfl⟩⟩

/-- The memory of StoreResult, StoreIndirectResult, StoreBaseOffsetResult: an entry at each end of the array and at 0x3001. -/
theorem witness_Stores : Memory.wf (scene [] [(0, 1), (0x3001, 0x4000), (0xFFFF, 1)] .z willing).mem = true := by decide

theorem witness_StoreIsSeenByTheNextFetch :
    ∃ s t i j v, Memory.wf s.mem = true ∧ s.fault = none ∧ decode (s.readMem s.pc) = .ok i ∧
      storeOf s.advance i = some (s.pc + 1, v) ∧ decode v = .ok j ∧ step s = .next t := by
  obtain ⟨t, h, -⟩ := exists_of_nextHas (r := step (scene [(0, 0xF025)] [(0x3000, 0x3000)] .z willing))
    (p := fun _ => true) (by decide)
  exact ⟨scene [(0, 0xF025)] [(0x3000, 0x3000)] .z willing, t, .st 0 0, .trapHalt, 0xF025, by decide, by decide, by decide,
    by decide, by decide, h⟩

theorem witness_GetCReadsOneByte :
    (answers [.byte 0xFF] []).nextRead = some (.byte 0xFF) ∧ (answers [.byte 0] []).nextRead = some (.byte 0) ∧
    (answers [.failure] []).nextRead = some .failure ∧ unanswered.console.nextRead = none := by decide

/-- A state with a prompt of two bytes and a notice of one. -/
def talkative (console : Console) : State :=
  { scene [] [(0x3000, 0xF023)] .z console with texts := { inPrompt := [0x3E, 0x20], haltNotice := [0x21] } }

theorem witness_InPromptsReadsAndFlushes :
    (∃ s : State, s.console.nextRead = some (.byte 0x0A) ∧ s.console.acksDone (s.texts.inPrompt.length + 1)) ∧
    (∃ s : State, 0 < s.texts.inPrompt.length ∧ s.console.failsAt 0) ∧
    (∃ s : State, s.texts.inPrompt.length = 2 ∧ s.console.failsAt 1) ∧
    (∃ s : State, s.console.nextRead = some .failure ∧ s.console.acksDone s.texts.inPrompt.length) ∧
    (∃ s : State, s.console.nextRead = some (.byte 0x0A) ∧ s.console.failsAt s.texts.inPrompt.length) ∧
    (∃ s : State, s.console.nextRead = none ∧ s.console.acksDone s.texts.inPrompt.length) :=
  ⟨⟨talkative (answers [.byte 0x0A] [.done, .done, .done]), by decide, acksDone_of_all (by decide)⟩,
    ⟨talkative (answers [] [.failure]), by decide, acksDone_of_all (by decide), by decide⟩,
    ⟨talkative (answers [] [.done, .failure]), by decide, acksDone_of_all (by decide), by decide⟩,
    ⟨talkative (answers [.failure] [.done, .done]), by decide, acksDone_of_all (by decide)⟩,
    ⟨talkative (answers [.byte 0x0A] [.done, .done, .failure]), by decide, acksDone_of_all (by decide), by decide⟩,
    ⟨talkative { answers [] [.done, .done] with silent := true }, by decide, acksDone_of_all (by decide)⟩⟩

theorem witness_OutWritesTheLowByte :
    willing.acksDone 2 ∧ (answers [] [.failure]).failsAt 0 ∧ (answers [] [.done, .failure]).failsAt 1 :=
  ⟨acksDone_of_all (by decide), ⟨acksDone_of_all (by decide), by decide⟩, ⟨acksDone_of_all (by decide), by decide⟩⟩

/-! Memories that are full but for some words at the end: n words 0x0141 from the address a on. -/

/-- n entries from a on. -/
def filled : Nat → Nat → Memory
  | 0, _ => []
  | n + 1, a => (a, 0x0141) :: filled n (a + 1)

theorem read_filled (n a x : Nat) : Memory.read (filled n a) x = if a ≤ x ∧ x < a + n then 0x0141 else 0 := by
  induction n generalizing a with
  | zero => rw [if_neg (by omega)]; rfl
  | succ n ih =>
    rw [filled, Memory.read, ih]
    by_cases h : x = a
    · rw [if_pos h, if_pos (by omega)]
    · by_cases h' : a ≤ x ∧ x < a + (n + 1)
      · rw [if_neg h, if_pos (by omega), if_pos h']
      · rw [if_neg h, if_neg (by omega), if_neg h']

/-- The start state with a memory of n words 0x0141 from address 0 on, R0 = 0, and a console that answers the first k writes and
then fails or goes on. -/
def filledState (n : Nat) (acks : List Ack) : State :=
  { start with mem := filled n 0, console := answers [] acks }

theorem filledState_read (n : Nat) (acks : List Ack) (k : Nat) (hk : k < 65536) :
    (filledState n acks).readMem ((filledState n acks).reg 0 + BitVec.ofNat 16 k) = if k < n then 0x0141 else 0 := by
  show Memory.read (filled n 0) (0#16 + BitVec.ofNat 16 k).toNat = _
  rw [BitVec.zero_add, read_filled, BitVec.toNat_ofNat, Nat.mod_eq_of_lt hk]
  simp

theorem ackAt_replicate (n k : Nat) (rest : List Ack) (hk : k < n) :
    (answers [] (List.replicate n .done ++ rest)).ackAt k = .done := by
  induction n generalizing k with
  | zero => exact absurd hk (Nat.not_lt_zero k)
  | succ n ih =>
    cases k with
    | zero => rfl
    | succ k => exact ih k (Nat.lt_of_succ_lt_succ hk)

theorem ackAt_last (n : Nat) : (answers [] (List.replicate n .done ++ [.failure])).ackAt n = .failure := by
  induction n with
  | zero => rfl
  | succ n ih => exact ih

/-- Both string statements: a string of n words up to the longest, 65,535, with willing answers and with a failure at any j. -/
theorem witness_strings (n : Nat) (hn : n < 65536) :
    (∀ acks, (∀ k, k < n → (filledState n acks).readMem ((filledState n acks).reg 0 + BitVec.ofNat 16 k) ≠ 0) ∧
      (filledState n acks).readMem ((filledState n acks).reg 0 + BitVec.ofNat 16 n) = 0) ∧
    (∀ m, (filledState n (List.replicate m .done ++ [])).console.acksDone m) ∧
    (∀ j, (filledState n (List.replicate j .done ++ [.failure])).console.failsAt j) := by
  refine ⟨fun acks => ⟨?_, ?_⟩, fun m k hk => ackAt_replicate m k [] hk, fun j => ⟨?_, ackAt_last j⟩⟩
  · intro k hk
    rw [filledState_read n acks k (by omega), if_pos hk]
    decide
  · rw [filledState_read n acks n hn, if_neg (Nat.lt_irrefl n)]
  · exact fun k hk => ackAt_replicate j k _ hk

theorem witness_PutsWritesLowBytesToTheZeroWord :
    (∃ s : State, (∀ k, k < 65535 → s.readMem (s.reg 0 + BitVec.ofNat 16 k) ≠ 0) ∧
      s.readMem (s.reg 0 + BitVec.ofNat 16 65535) = 0 ∧ s.console.acksDone (65535 + 1)) ∧
    (∃ s : State, (∀ k, k < 65535 → s.readMem (s.reg 0 + BitVec.ofNat 16 k) ≠ 0) ∧
      s.readMem (s.reg 0 + BitVec.ofNat 16 65535) = 0 ∧ s.console.failsAt 65535) ∧
    (∃ s : State, s.readMem (s.reg 0 + BitVec.ofNat 16 0) = 0 ∧ s.console.failsAt 0) := by
  obtain ⟨h, hd, hf⟩ := witness_strings 65535 (by decide)
  refine ⟨⟨_, (h _).1, (h _).2, hd (65535 + 1)⟩, ⟨_, (h _).1, (h _).2, hf 65535⟩, ?_⟩
  obtain ⟨h0, -, hf0⟩ := witness_strings 0 (by decide)
  exact ⟨_, (h0 _).2, hf0 0⟩

/-- The events of a string of one packed word and the flush, at 0x4000 in this scene. -/
def packed (acks : List Ack) : State := scene [(0, 0x4000)] [(0x3000, 0xF024), (0x4000, 0x6948)] .z (answers [] acks)

theorem witness_PutsPWritesPackedBytes :
    ∀ acks, (∀ k, k < 1 → (packed acks).readMem ((packed acks).reg 0 + BitVec.ofNat 16 k) ≠ 0) ∧
      (packed acks).readMem ((packed acks).reg 0 + BitVec.ofNat 16 1) = 0 ∧
      [ConsoleEvent.write 0x48, .write 0x69, .flush] = ((List.range 1).map fun k =>
        if ((packed acks).readMem ((packed acks).reg 0 + BitVec.ofNat 16 k)).toNat / 256 = 0
        then [ConsoleEvent.write (((packed acks).readMem ((packed acks).reg 0 + BitVec.ofNat 16 k)).extractLsb' 0 8)]
        else [ConsoleEvent.write (((packed acks).readMem ((packed acks).reg 0 + BitVec.ofNat 16 k)).extractLsb' 0 8),
          ConsoleEvent.write (((packed acks).readMem ((packed acks).reg 0 + BitVec.ofNat 16 k)).extractLsb' 8 8)]).flatten ++
        [ConsoleEvent.flush] ∧
      (packed [.done, .done, .done]).console.acksDone 3 ∧ (packed [.done, .done, .failure]).console.failsAt 2 := by
  intro acks
  have h0 : (packed acks).readMem ((packed acks).reg 0 + BitVec.ofNat 16 0) = 0x6948 := rfl
  refine ⟨?_, rfl, ?_, acksDone_of_all (by decide), acksDone_of_all (by decide), by decide⟩
  · intro k hk
    obtain rfl : k = 0 := by omega
    rw [h0]; decide
  · simp only [List.range_one, List.map_cons, List.map_nil, h0]
    decide

theorem filled_full (a : Word) : Memory.read (filled 65536 0) a.toNat ≠ 0 := by
  rw [read_filled, if_pos ⟨Nat.zero_le _, by have := a.isLt; omega⟩]
  decide

/-- A full memory with a console that never fails, with one whose first failure is listed, and with one whose first failure comes
after the listed answers and more than a lap of the memory. -/
theorem witness_StringWithoutZeroWordNeverCompletes :
    (∃ s : State, (∀ a, s.readMem a ≠ 0) ∧ ∀ n, s.console.acksDone n) ∧
    (∃ s : State, (∀ a, s.readMem a ≠ 0) ∧ s.console.failsAt 3) ∧
    (∃ s : State, (∀ a, s.readMem a ≠ 0) ∧ s.console.failsAt 65537) :=
  ⟨⟨{ filledState 65536 [] with console := { answers [] [.done] with doneRun := none } }, fun a => filled_full a,
      (firstFailure_spec _).2 rfl⟩,
    ⟨filledState 65536 [.done, .done, .done, .failure], fun a => filled_full a, (firstFailure_spec _).1 3 rfl⟩,
    ⟨{ filledState 65536 [] with console := { answers [] [.done] with doneRun := some 65536 } }, fun a => filled_full a,
      (firstFailure_spec _).1 65537 rfl⟩⟩

/-- A full memory, and a console whose first answer is failure: Puts and PutsP end in a next state. -/
theorem witness_stringsWithoutZeroWord : ∀ i, i = .trapPuts ∨ i = .trapPutsp →
    ∃ s t : State, (∀ a, s.readMem a ≠ 0) ∧ exec i s = .next t := by
  have run : ∀ f : Word → List Byte, (∀ w, 0 < (f w).length) → ∃ t, printString f (filledState 65536 [.failure]) = .next t := by
    intro f hf
    obtain ⟨c, h, -⟩ := printString_endless_fails f hf (filledState 65536 [.failure]) 0 filled_full ((firstFailure_spec _).1 0 rfl)
    exact ⟨_, h⟩
  intro i hi
  rcases hi with rfl | rfl
  · obtain ⟨t, ht⟩ := run putsBytes putsBytes_pos
    exact ⟨filledState 65536 [.failure], t, fun a => filled_full a, ht⟩
  · obtain ⟨t, ht⟩ := run putspBytes putspBytes_pos
    exact ⟨filledState 65536 [.failure], t, fun a => filled_full a, ht⟩

theorem witness_HaltClearsRunning :
    (∃ s : State, s.console.acksDone (s.texts.haltNotice.length + 1)) ∧
    (∃ s : State, 0 < s.texts.haltNotice.length + 1 ∧ s.console.failsAt 0) ∧
    (∃ s : State, 1 < s.texts.haltNotice.length + 1 ∧ s.console.failsAt 1) :=
  ⟨⟨talkative (answers [] [.done, .done]), acksDone_of_all (by decide)⟩,
    ⟨talkative (answers [] [.failure]), by decide, acksDone_of_all (by decide), by decide⟩,
    ⟨talkative (answers [] [.done, .failure]), by decide, acksDone_of_all (by decide), by decide⟩⟩

theorem witness_HaltStopsTheRunLoop :
    ∃ s t, s.running = true ∧ s.fault = none ∧ decode (s.readMem s.pc) = .ok .trapHalt ∧ step s = .next t ∧ t.fault = none := by
  obtain ⟨t, h, hp⟩ := exists_of_nextHas (r := step { scene [] [(0x3000, 0xF025)] .z willing with running := true })
    (p := fun t => t.fault == none) (by decide)
  exact ⟨{ scene [] [(0x3000, 0xF025)] .z willing with running := true }, t, rfl, rfl, by decide, h, eq_of_beq hp⟩

theorem witness_TrapsAreNoControlTransfer :
    ∀ i : Instr, i.isTrap = true → ∃ s t, exec i s = .next t := by
  have run : ∀ i, nextHas (exec i (scene [(0, 0x4000)] [] .z willing)) (fun _ => true) = true → ∃ s t, exec i s = .next t :=
    fun i h => (exists_of_nextHas h).elim fun t ht => ⟨_, t, ht.1⟩
  intro i hi
  cases i with
  | trapGetc => exact run _ (by decide)
  | trapOut => exact run _ (by decide)
  | trapPuts => exact run _ (by decide)
  | trapIn => exact run _ (by decide)
  | trapPutsp => exact run _ (by decide)
  | trapHalt => exact run _ (by decide)
  | _ => cases hi

theorem witness_RegistersChangeOnlyWithTheFlag :
    (∃ s t, exec (.addImm 0 0 1) s = .next t ∧ t.reg 0 ≠ s.reg 0) ∧ (∃ s t, exec (.st 0 1) s = .next t ∧ RegsKept s t) :=
  ⟨⟨start, _, rfl, by decide⟩, ⟨start, _, rfl, fun _ => rfl, rfl⟩⟩

theorem witness_OnlyControlInstructionsWritePc : ∃ s t, writesPc (.addImm 0 0 1) = false ∧ exec (.addImm 0 0 1) s = .next t :=
  ⟨start, _, rfl, rfl⟩

theorem witness_OnlyStoresWriteMemory :
    (∃ s t, Memory.wf s.mem = true ∧ exec (.sti 0 1) s = .next t ∧ storeOf s (.sti 0 1) ≠ none) ∧
    (∃ s t, Memory.wf s.mem = true ∧ exec (.ldi 0 1) s = .next t ∧ storeOf s (.ldi 0 1) = none) :=
  ⟨⟨start, _, by decide, rfl, by decide⟩, ⟨start, _, by decide, rfl, by decide⟩⟩

theorem witness_RunningClearedOnlyByHalt :
    ∃ s t, s.running = true ∧ step s = .next t ∧ t.running = false := by
  obtain ⟨t, h, hp⟩ := exists_of_nextHas (r := step { scene [] [(0x3000, 0xF025)] .z willing with running := true })
    (p := fun t => t.running == false) (by decide)
  exact ⟨{ scene [] [(0x3000, 0xF025)] .z willing with running := true }, t, rfl, h, eq_of_beq hp⟩

/-- The second part of HaltStopsTheRunLoop. -/
theorem witness_HaltStopsTheRunLoop_second : ∃ s t, s.running = true ∧ step s = .next t ∧ t.running = false :=
  witness_RunningClearedOnlyByHalt

theorem witness_OnlyTrapsUseTheConsole : Instr.isTrap (.br 0 0) = false ∧ Instr.isTrap (.str 7 7 0xFFE0) = false := by decide

theorem witness_BranchMaskExtremes : start.fault = none ∧ start.readMem start.pc = 0x0000 := by decide

end Sys2Proof.Tests
end

/-! # Proofs of the state's family (spec/10_state.md) -/

section
/-! ## What an instruction can do

The ends of an instruction that is no Trap, and what every end, with TrapEnd for the Traps, keeps of each field. -/

namespace Sys2Proof.Machine

/-- Branch as one write of pc, to pc itself where it is not taken (R132). -/
theorem execBr_eq_setPc (nzp : BitVec 3) (off : Word) (s : State) :
    execBr nzp off s = .next (s.setPc (if s.cond.selectedBy nzp then pcRelative s off else s.pc)) := by
  unfold execBr
  split <;> rfl

/-- The ends of an instruction that is no Trap: one register written; the link written and pc; pc alone; or one word stored. -/
inductive PlainEnd (s : State) (i : Instr) : State → Prop where
  | wrote (d : Reg) (v : Word) (hd : destReg i = some d) (hs : storeOf s i = none) : PlainEnd s i (s.setReg d v)
  | linked (target : Word) (hd : destReg i = some linkReg) (hp : writesPc i = true) (hs : storeOf s i = none) :
      PlainEnd s i ((s.setReg linkReg s.pc).setPc target)
  | jumped (target : Word) (hp : writesPc i = true) (hs : storeOf s i = none) : PlainEnd s i (s.setPc target)
  | stored (a v : Word) (hs : storeOf s i = some (a, v)) : PlainEnd s i (s.writeMem a v)

/-- An instruction that is no Trap completes in every state, in one of these ends. -/
theorem exists_plainEnd (i : Instr) (s : State) (hi : i.isTrap = false) : ∃ t, exec i s = .next t ∧ PlainEnd s i t := by
  cases i
  case addReg | addImm | andReg | andImm | not | ld | ldi | ldr | lea => exact ⟨_, rfl, .wrote _ _ rfl rfl⟩
  case jsr | jsrr => exact ⟨_, rfl, .linked _ rfl rfl rfl⟩
  case br nzp off => exact ⟨_, execBr_eq_setPc nzp off s, .jumped _ rfl rfl⟩
  case jmp => exact ⟨_, rfl, .jumped _ rfl rfl⟩
  case st | sti | str => exact ⟨_, rfl, .stored _ _ rfl⟩
  case trapGetc | trapOut | trapPuts | trapIn | trapPutsp | trapHalt => cases hi

/-- Every end of an instruction that answers a next state. -/
theorem exec_cases {i : Instr} {s t : State} (h : exec i s = .next t) :
    (i.isTrap = false ∧ PlainEnd s i t) ∨ (i.isTrap = true ∧ TrapEnd s i t) := by
  cases hi : i.isTrap with
  | true => exact .inr ⟨rfl, trapEnd_of_exec i s t hi h⟩
  | false =>
    obtain ⟨u, hu, hend⟩ := exists_plainEnd i s hi
    obtain rfl : u = t := by rw [hu] at h; cases h; rfl
    exact .inl ⟨rfl, hend⟩

section
variable {i : Instr} {s t : State}

theorem PlainEnd.running (h : PlainEnd s i t) : t.running = s.running := by cases h <;> rfl

theorem PlainEnd.fault (h : PlainEnd s i t) : t.fault = s.fault := by cases h <;> rfl

theorem PlainEnd.console (h : PlainEnd s i t) : t.console = s.console := by cases h <;> rfl

theorem PlainEnd.pc (h : PlainEnd s i t) (hi : writesPc i = false) : t.pc = s.pc := by
  cases h with
  | wrote | stored => rfl
  | linked _ _ hp | jumped _ hp => rw [hi] at hp; cases hp

theorem PlainEnd.mem_wf (h : PlainEnd s i t) (hwf : Memory.wf s.mem = true) : Memory.wf t.mem = true := by
  cases h with
  | wrote | linked | jumped => exact hwf
  | stored a v => exact Memory.wf_write s.mem a v hwf

theorem PlainEnd.registers (h : PlainEnd s i t) :
    RegsKept s t ∨ ∃ d, destReg i = some d ∧ RegWritten s t d (t.reg d) := by
  cases h with
  | wrote d v hd =>
    refine .inr ⟨d, hd, ?_⟩
    rw [State.setReg_reg_same]
    exact regWritten_setReg s d v
  | linked target hd =>
    refine .inr ⟨linkReg, hd, ?_⟩
    rw [State.setPc_reg, State.setReg_reg_same]
    exact regWritten_setReg s linkReg s.pc
  | jumped | stored => exact .inl ⟨fun _ => rfl, rfl⟩

theorem TrapEnd.pc (h : TrapEnd s i t) : t.pc = s.pc := by cases h <;> rfl

theorem TrapEnd.mem (h : TrapEnd s i t) : t.mem = s.mem := by cases h <;> rfl

theorem TrapEnd.running (h : TrapEnd s i t) : t.running = s.running ∨ (i = .trapHalt ∧ t.running = false) := by
  cases h with
  | consoleOnly | read | failed | readFailed => exact .inl rfl
  | halted => exact .inr ⟨rfl, rfl⟩

theorem TrapEnd.fault (h : TrapEnd s i t) : t.fault = s.fault ∨ IoFailureRecorded s t := by
  cases h with
  | consoleOnly | read | halted => exact .inl rfl
  | failed | readFailed => exact .inr rfl

theorem TrapEnd.registers (h : TrapEnd s i t) :
    RegsKept s t ∨ ∃ d, destReg i = some d ∧ RegWritten s t d (t.reg d) := by
  cases h with
  | consoleOnly | failed | halted => exact .inl ⟨fun _ => rfl, rfl⟩
  | read c b hi =>
    refine .inr ⟨0, by obtain rfl | rfl := hi <;> rfl, ?_⟩
    rw [State.setReg_reg_same]
    exact regWritten_setReg (s.withConsole c) 0 (zext16 b)
  | readFailed c b =>
    refine .inr ⟨0, rfl, ?_⟩
    rw [State.raise_reg, State.setReg_reg_same]
    exact regWritten_setReg (s.withConsole c) 0 (zext16 b)

/-- Running is kept, but for the Halt that clears it (R31). -/
theorem exec_running (h : exec i s = .next t) : t.running = s.running ∨ (i = .trapHalt ∧ t.running = false) := by
  obtain ⟨-, hend⟩ | ⟨-, hend⟩ := exec_cases h
  · exact .inl hend.running
  · exact hend.running

/-- Every instruction keeps memory canonical. -/
theorem exec_mem_wf (h : exec i s = .next t) (hwf : Memory.wf s.mem = true) : Memory.wf t.mem = true := by
  obtain ⟨-, hend⟩ | ⟨-, hend⟩ := exec_cases h
  · exact hend.mem_wf hwf
  · rw [hend.mem]
    exact hwf

/-- The fault status is kept, or a Trap recorded IoFailure and left pc and memory as they were (R210, R212). -/
theorem exec_fault (h : exec i s = .next t) :
    t.fault = s.fault ∨ (i.isTrap = true ∧ IoFailureRecorded s t ∧ t.pc = s.pc ∧ t.mem = s.mem) := by
  obtain ⟨-, hend⟩ | ⟨hi, hend⟩ := exec_cases h
  · exact .inl hend.fault
  · exact hend.fault.imp_right fun hio => ⟨hi, hio, hend.pc, hend.mem⟩

/-- Everything a step that answers a next state can be: the decoded instruction, or the decode fault (R247). -/
theorem step_cases (h : step s = .next t) : s.fault = none ∧
    ((∃ i, decode s.fetchWord = .ok i ∧ exec i s.advance = .next t) ∨
      ∃ c, decode s.fetchWord = .error c ∧ t = s.takeDecodeFault c) := by
  cases hf : s.fault with
  | some r =>
    rw [step, hf] at h
    cases h
  | none =>
    rw [step_of_noFault s hf] at h
    cases hd : decode s.fetchWord with
    | ok i =>
      rw [hd] at h
      exact ⟨rfl, .inl ⟨i, rfl, h⟩⟩
    | error c =>
      rw [hd] at h
      cases h
      exact ⟨rfl, .inr ⟨c, rfl, rfl⟩⟩

/-- A step keeps running, or its fetched word is a Halt that clears it. -/
theorem step_running (h : step s = .next t) :
    t.running = s.running ∨ (decode s.fetchWord = .ok .trapHalt ∧ t.running = false) := by
  obtain ⟨-, ⟨i, hd, hx⟩ | ⟨c, -, rfl⟩⟩ := step_cases h
  · exact (exec_running hx).imp_right fun ⟨hi, hr⟩ => ⟨hi ▸ hd, hr⟩
  · exact .inl rfl

end

end Sys2Proof.Machine
end

section
/-! ## The invariant -/

namespace Sys2Proof.Machine

theorem faultTrue_of_fault_eq_none {s : State} (h : s.fault = none) : FaultTrue s := by
  intro r hr
  rw [h] at hr
  cases hr

/-- Where the recorded cause is one the word at the address just behind pc can have, the record is true. -/
theorem faultTrue_of_record {s : State} {c : FaultCause} {a : Word} (hpc : s.pc = a + 1)
    (hf : s.fault = some { cause := c, word := s.readMem a, address := a }) (hc : causeFits (s.readMem a) c) :
    FaultTrue s := by
  intro r hr
  obtain rfl := Option.some.inj (hf.symm.trans hr)
  exact ⟨hpc, rfl, hc⟩

/-- The decoder gives the cause that a decode fault records (R211). -/
theorem causeFits_causeOf {w : Word} {c : DecodeFault} (h : decode w = .error c) : causeFits w (causeOf c) := by
  cases c <;> exact h

theorem faultTrue_takeDecodeFault {s : State} {c : DecodeFault} (h : decode s.fetchWord = .error c) :
    FaultTrue (s.takeDecodeFault c) := by
  refine faultTrue_of_record (a := s.pc) rfl ?_ (causeFits_causeOf h)
  rw [State.takeDecodeFault, State.raise_fault, State.advance_currentAddress]
  rfl

/-- An instruction run by a step of a core with no fault leaves a true fault status. -/
theorem faultTrue_exec_advance {s t : State} {i : Instr} (hf : s.fault = none) (hd : decode s.fetchWord = .ok i)
    (h : exec i s.advance = .next t) : FaultTrue t := by
  obtain hkept | ⟨hi, hio, hpc, hmem⟩ := exec_fault h
  · exact faultTrue_of_fault_eq_none (hkept.trans hf)
  · have hread : t.readMem s.pc = s.fetchWord := congrArg (fun m => Memory.read m s.pc.toNat) hmem
    have haddr : s.advance.pc - 1 = s.pc := s.advance_currentAddress
    rw [IoFailureRecorded, haddr] at hio
    refine faultTrue_of_record (c := .ioFailure) (a := s.pc) hpc ?_ ⟨i, by rw [hread]; exact hd, hi⟩
    rw [hread]
    exact hio

/-- Settles O3: memory by the write's law, the fault record by what exec and a decode fault can record. -/
theorem stepKeepsInvariant : Obligations.StepKeepsInvariant := by
  intro s t hinv h
  obtain ⟨hf, ⟨i, hd, hx⟩ | ⟨c, hd, rfl⟩⟩ := step_cases h
  · exact ⟨exec_mem_wf hx hinv.memory, faultTrue_exec_advance hf hd hx⟩
  · exact ⟨hinv.memory, faultTrue_takeDecodeFault hd⟩

/-- Settles O2: no fault is recorded after construction, and the empty image is canonical. -/
theorem resetMeetsInvariant : Obligations.ResetMeetsInvariant :=
  ⟨⟨rfl, faultTrue_of_fault_eq_none rfl⟩, fun _ _ _ _ _ hwf => ⟨hwf, faultTrue_of_fault_eq_none rfl⟩⟩

/-- Register k of a constructed core is the k-th given value (R40). -/
theorem construct_reg (regs : Vector Word 8) (cond : Flag) (image : Memory) (texts : Texts) (console : Console)
    (k : Nat) (h : k < 8) : (State.construct regs cond image texts console).reg (BitVec.ofNat 3 k) = regs[k] := by
  have hk : (BitVec.ofNat 3 k).toNat = k := Nat.mod_eq_of_lt h
  simp [State.reg, State.construct, hk]

/-- Settles O1: the registers by construct_reg, every other field by construction. -/
theorem constructionSetsEveryField : Obligations.ConstructionSetsEveryField :=
  fun regs cond image texts console =>
    ⟨rfl, rfl, rfl, construct_reg regs cond image texts console, rfl, fun _ => rfl, rfl, rfl⟩

end Sys2Proof.Machine
end

section
/-! ## Frames over all instructions -/

namespace Sys2Proof.Machine

/-- Settles O56, by the ends of plain instructions and of Traps. -/
theorem registersChangeOnlyWithTheFlag : Obligations.RegistersChangeOnlyWithTheFlag := by
  intro i s t h
  obtain ⟨-, hend⟩ | ⟨-, hend⟩ := exec_cases h
  · exact hend.registers
  · exact hend.registers

/-- Settles O57: no Trap writes pc, and of the plain ends only those of the four control instructions do. -/
theorem onlyControlInstructionsWritePc : Obligations.OnlyControlInstructionsWritePc := by
  intro i s t hi h
  obtain ⟨-, hend⟩ | ⟨-, hend⟩ := exec_cases h
  · exact hend.pc hi
  · exact hend.pc

/-- Settles O59: it is step_running, with the fetched word written as a read of memory. -/
theorem runningClearedOnlyByHalt : Obligations.RunningClearedOnlyByHalt := fun _ _ h => step_running h

/-- Settles O60: the plain ends keep console and fault status. -/
theorem onlyTrapsUseTheConsole : Obligations.OnlyTrapsUseTheConsole := by
  intro i s hi
  obtain ⟨t, ht, hend⟩ := exists_plainEnd i s hi
  exact ⟨t, ht, hend.console, hend.fault⟩

end Sys2Proof.Machine
end

section
/-! ## Two runs from states that differ in the flag or in the running bit

exec takes states that agree on all but these two to states that do so, or to the same fault. -/

namespace Sys2Proof.Machine

/-- The second state is the first with another flag and another running bit, but the same flag where onCond holds and the same
running bit where onRunning holds. -/
inductive Agrees (onCond onRunning : Prop) (s : State) : State → Prop where
  | mk (c : Flag) (b : Bool) (hc : onCond → c = s.cond) (hb : onRunning → b = s.running) :
      Agrees onCond onRunning s { s with cond := c, running := b }

/-- Two chains of console operations end alike, in related states. -/
inductive ChainsRelated (R : State → State → Prop) : Except State State → Except State State → Prop where
  | ok {s t : State} (h : R s t) : ChainsRelated R (.ok s) (.ok t)
  | error {s t : State} (h : R s t) : ChainsRelated R (.error s) (.error t)

/-- Two results are next states that are related, or the same fault. -/
inductive ResultsRelated (R : State → State → Prop) : Result → Result → Prop where
  | next {s t : State} (h : R s t) : ResultsRelated R (.next s) (.next t)
  | fault (f : Fault) : ResultsRelated R (.fault f) (.fault f)

section
variable {R : State → State → Prop} {x y : Except State State} {r q : Result}

theorem ChainsRelated.settle (h : ChainsRelated R x y) : R (settle x) (settle y) := by
  cases h with
  | ok h | error h => exact h

theorem ChainsRelated.bind {f g : State → Except State State} (h : ChainsRelated R x y)
    (hfg : ∀ s t, R s t → ChainsRelated R (f s) (g t)) : ChainsRelated R (x.bind f) (y.bind g) := by
  cases h with
  | ok h => exact hfg _ _ h
  | error h => exact .error h

theorem ChainsRelated.map {f g : State → State} (h : ChainsRelated R x y) (hfg : ∀ s t, R s t → R (f s) (g t)) :
    ChainsRelated R (x.map f) (y.map g) := by
  cases h with
  | ok h => exact .ok (hfg _ _ h)
  | error h => exact .error h

theorem ResultsRelated.exists_next {t : State} (h : ResultsRelated R r q) (hr : r = .next t) :
    ∃ u, q = .next u ∧ R t u := by
  cases h with
  | next h => cases hr; exact ⟨_, rfl, h⟩
  | fault f => cases hr

theorem ResultsRelated.fault_eq {f : Fault} (h : ResultsRelated R r q) (hr : r = .fault f) : q = .fault f := by
  cases h with
  | next h => cases hr
  | fault f => exact hr

end

section
variable {onCond onRunning : Prop} {s t : State}

theorem Agrees.withConsole (h : Agrees onCond onRunning s t) (c : Console) :
    Agrees onCond onRunning (s.withConsole c) (t.withConsole c) := by
  obtain ⟨c, b, hc, hb⟩ := h
  exact ⟨c, b, hc, hb⟩

theorem Agrees.raise (h : Agrees onCond onRunning s t) (cause : FaultCause) :
    Agrees onCond onRunning (s.raise cause) (t.raise cause) := by
  obtain ⟨c, b, hc, hb⟩ := h
  exact ⟨c, b, hc, hb⟩

theorem Agrees.advance (h : Agrees onCond onRunning s t) : Agrees onCond onRunning s.advance t.advance := by
  obtain ⟨c, b, hc, hb⟩ := h
  exact ⟨c, b, hc, hb⟩

/-- After a register write the flags are the same, whatever they were. -/
theorem Agrees.setReg (h : Agrees onCond onRunning s t) (d : Reg) (v : Word) :
    Agrees onCond onRunning (s.setReg d v) (t.setReg d v) := by
  obtain ⟨c, b, -, hb⟩ := h
  exact ⟨flagOf v, b, fun _ => rfl, hb⟩

/-- After a Halt the running bits are the same, whatever they were. -/
theorem Agrees.clearRunning (h : Agrees onCond onRunning s t) :
    Agrees onCond onRunning { s with running := false } { t with running := false } := by
  obtain ⟨c, b, hc, -⟩ := h
  exact ⟨c, false, hc, fun _ => rfl⟩

theorem Agrees.reg (h : Agrees onCond onRunning s t) (r : Reg) : t.reg r = s.reg r := by cases h; rfl

theorem Agrees.fault (h : Agrees onCond onRunning s t) : t.fault = s.fault := by cases h; rfl

theorem Agrees.mem (h : Agrees onCond onRunning s t) : t.mem = s.mem := by cases h; rfl

theorem Agrees.fetchWord (h : Agrees onCond onRunning s t) : t.fetchWord = s.fetchWord := by cases h; rfl

theorem Agrees.texts (h : Agrees onCond onRunning s t) : t.texts = s.texts := by cases h; rfl

theorem Agrees.console (h : Agrees onCond onRunning s t) : t.console = s.console := by cases h; rfl

theorem Agrees.stringWrites (h : Agrees onCond onRunning s t) (bytesOf : Word → List Byte) (fuel : Nat) :
    stringWrites bytesOf fuel t = stringWrites bytesOf fuel s := by cases h; rfl

theorem Agrees.request (h : Agrees onCond onRunning s t) (e : ConsoleEvent) :
    ChainsRelated (Agrees onCond onRunning) (request e s) (request e t) := by
  cases hn : s.console.nextAck with
  | done =>
    rw [request_done e s hn, request_done e t (h.console ▸ hn), h.console]
    exact .ok (h.withConsole _)
  | failure =>
    rw [request_failure e s hn, request_failure e t (h.console ▸ hn), h.console]
    exact .error ((h.withConsole _).raise _)

theorem Agrees.requests (h : Agrees onCond onRunning s t) (es : List ConsoleEvent) :
    ChainsRelated (Agrees onCond onRunning) (requests es s) (requests es t) := by
  induction es generalizing s t with
  | nil => exact .ok h
  | cons e rest ih => exact (h.request e).bind fun _ _ h' => ih h'

theorem Agrees.takeRead (h : Agrees onCond onRunning s t) (a : ReadAnswer) :
    ChainsRelated (Agrees onCond onRunning) (takeRead a s) (takeRead a t) := by
  obtain ⟨c, b, hc, hb⟩ := h
  cases a with
  | byte x => exact .ok ⟨flagOf (zext16 x), b, fun _ => rfl, hb⟩
  | failure => exact .error ⟨c, b, hc, hb⟩

theorem Agrees.printString (h : Agrees onCond onRunning s t) (bytesOf : Word → List Byte) :
    ResultsRelated (Agrees onCond onRunning) (printString bytesOf s) (printString bytesOf t) := by
  unfold Machine.printString
  simp only [h.mem, h.reg, h.console, h.stringWrites]
  split
  · exact .next (h.requests _).settle
  · cases s.console.firstFailure with
    | some k => exact .next (h.requests _).settle
    | none => exact .fault _

theorem Agrees.execTrapGetc (h : Agrees onCond onRunning s t) :
    ResultsRelated (Agrees onCond onRunning) (execTrapGetc s) (execTrapGetc t) := by
  unfold Machine.execTrapGetc
  rw [h.console]
  cases s.console.nextRead with
  | none => exact .fault _
  | some a => exact .next (h.takeRead a).settle

theorem Agrees.execTrapOut (h : Agrees onCond onRunning s t) :
    ResultsRelated (Agrees onCond onRunning) (execTrapOut s) (execTrapOut t) := by
  unfold Machine.execTrapOut
  rw [h.reg]
  exact .next (h.requests _).settle

theorem Agrees.execTrapIn (h : Agrees onCond onRunning s t) :
    ResultsRelated (Agrees onCond onRunning) (execTrapIn s) (execTrapIn t) := by
  have hprompt := h.requests (writesOf s.texts.inPrompt)
  unfold Machine.execTrapIn
  rw [h.console, h.texts]
  cases s.console.nextRead with
  | none =>
    generalize Machine.requests (writesOf s.texts.inPrompt) s = x at hprompt ⊢
    generalize Machine.requests (writesOf s.texts.inPrompt) t = y at hprompt ⊢
    cases hprompt with
    | ok => exact .fault _
    | error h' => exact .next h'
  | some a => exact .next ((hprompt.bind fun _ _ h' => h'.takeRead a).bind fun _ _ h' => h'.request _).settle

theorem Agrees.execTrapHalt (h : Agrees onCond onRunning s t) :
    ResultsRelated (Agrees onCond onRunning) (execTrapHalt s) (execTrapHalt t) := by
  unfold Machine.execTrapHalt
  rw [h.texts]
  exact .next ((h.requests _).map fun _ _ h' => h'.clearRunning).settle

/-- From states that agree on all but flag and running bit, an instruction goes to such states or to the same fault, as long as
the flags agree for a Branch. -/
theorem Agrees.exec (h : Agrees onCond onRunning s t) (i : Instr) (hbr : ∀ m o, i = .br m o → onCond) :
    ResultsRelated (Agrees onCond onRunning) (exec i s) (exec i t) := by
  cases i
  case trapGetc => exact h.execTrapGetc
  case trapOut => exact h.execTrapOut
  case trapPuts | trapPutsp => exact h.printString _
  case trapIn => exact h.execTrapIn
  case trapHalt => exact h.execTrapHalt
  all_goals obtain ⟨c, b, hc, hb⟩ := h
  case addReg | addImm | andReg | andImm | not | ld | ldi | ldr | lea | jsr | jsrr =>
    exact .next ⟨_, b, fun _ => rfl, hb⟩
  case jmp | st | sti | str => exact .next ⟨c, b, hc, hb⟩
  case br nzp off =>
    obtain rfl := hc (hbr nzp off rfl)
    show ResultsRelated _ (execBr nzp off s) (execBr nzp off { s with running := b })
    rw [execBr_eq_setPc, execBr_eq_setPc]
    exact .next ⟨s.cond, b, fun _ => rfl, hb⟩

/-- A step from states that agree on all but the running bit goes to such states or to the same fault. -/
theorem Agrees.step (h : Agrees True onRunning s t) : ResultsRelated (Agrees True onRunning) (step s) (step t) := by
  unfold Machine.step
  rw [h.fault, h.fetchWord]
  cases s.fault with
  | some r => exact .fault _
  | none =>
    cases decode s.fetchWord with
    | ok i => exact h.advance.exec i fun _ _ _ => trivial
    | error c => exact .next (h.advance.raise (causeOf c))

theorem Agrees.withRunning_eq (h : Agrees True onRunning s t) : { t with running := s.running } = s := by
  obtain ⟨c, b, hc, -⟩ := h
  obtain rfl := hc trivial
  rfl

theorem Agrees.withCond_eq (h : Agrees onCond True s t) : { t with cond := s.cond } = s := by
  obtain ⟨c, b, -, hb⟩ := h
  obtain rfl := hb trivial
  rfl

end

theorem agrees_withRunning (s : State) (b : Bool) : Agrees True False s { s with running := b } :=
  ⟨s.cond, b, fun _ => rfl, False.elim⟩

theorem agrees_withCond (s : State) (c : Flag) : Agrees False True s { s with cond := c } :=
  ⟨c, s.running, False.elim, fun _ => rfl⟩

/-- STEP on a core with no fault is one step (R246). -/
theorem hostStep_of_noFault {s : State} (h : s.fault = none) : hostStep s = step s := by
  rw [hostStep, h]
  rfl

/-- Settles O25, by the two runs from states that differ in running, and step_running for the second run's own bit. -/
theorem stepDoesNotReadRunning : Obligations.StepDoesNotReadRunning := by
  refine ⟨fun s b hf => ⟨hostStep_of_noFault hf, hostStep_of_noFault hf⟩, fun s b => ⟨fun t ht => ?_, fun f hf => ?_⟩⟩
  · obtain ⟨u, hu, hagree⟩ := (agrees_withRunning s b).step.exists_next ht
    exact ⟨u, hu, hagree.withRunning_eq, (step_running hu).imp_right And.right⟩
  · exact (agrees_withRunning s b).step.fault_eq hf

/-- Settles O26, by the two runs from states that differ in cond; a Branch writes pc alone. -/
theorem onlyBranchReadsCond : Obligations.OnlyBranchReadsCond := by
  refine ⟨fun i s c hi => ?_, fun m o s c =>
    ⟨_, _, execBr_eq_setPc m o s, execBr_eq_setPc m o { s with cond := c }, fun _ => rfl, fun _ => rfl, rfl⟩⟩
  have hrel := (agrees_withCond s c).exec i hi
  refine ⟨fun t ht => ?_, fun f hf => hrel.fault_eq hf⟩
  obtain ⟨u, hu, hagree⟩ := hrel.exists_next ht
  exact ⟨u, hu, hagree.withCond_eq⟩

end Sys2Proof.Machine
end

/-! # Proofs of the memory's family (spec/20_memory.md) -/

section
/-! ## Stores and the words they write

storeOf says of every instruction what it does to memory: the end is the store it names, or memory is the same. -/

namespace Sys2Proof.Machine

variable {s t : State} {i : Instr} {a v : Word}

theorem memKept_of_mem_eq (h : t.mem = s.mem) : MemKept s t := fun b => congrArg (fun m => Memory.read m b.toNat) h

/-- An instruction that names a store does that store and nothing else (R158, R160, R162). -/
theorem exec_of_storeOf_eq_some (hs : storeOf s i = some (a, v)) : exec i s = .next (s.writeMem a v) := by
  cases i
  case st | sti | str =>
    cases hs
    rfl
  all_goals cases hs

theorem PlainEnd.mem_of_storeOf_eq_none (h : PlainEnd s i t) (hs : storeOf s i = none) : t.mem = s.mem := by
  cases h with
  | wrote | linked | jumped => rfl
  | stored _ _ hstore => rw [hs] at hstore; cases hstore

/-- An instruction that names no store leaves memory as it is (R53). -/
theorem exec_mem_of_storeOf_eq_none (h : exec i s = .next t) (hs : storeOf s i = none) : t.mem = s.mem := by
  obtain ⟨-, hend⟩ | ⟨-, hend⟩ := exec_cases h
  · exact hend.mem_of_storeOf_eq_none hs
  · exact hend.mem

/-- A step of a core with no fault whose fetched word decodes is that instruction after the fetch increment (R247). -/
theorem step_of_decode_ok (hf : s.fault = none) (hd : decode s.fetchWord = .ok i) : step s = exec i s.advance := by
  rw [step_of_noFault s hf, hd]

/-- A store to the word at pc is what the next fetch reads (R62). -/
theorem State.fetchWord_writeMem_pc (hwf : Memory.wf s.mem = true) : (s.writeMem s.pc v).fetchWord = v :=
  (memStored_writeMem s s.pc v hwf).1

end Sys2Proof.Machine
end

section
/-! ## What instructions and steps do to memory -/

namespace Sys2Proof.Machine

/-- Settles O58: a store named is the store done, and with none named memory is the same. -/
theorem onlyStoresWriteMemory : Obligations.OnlyStoresWriteMemory := by
  intro i s t hwf h
  cases hs : storeOf s i with
  | none => exact memKept_of_mem_eq (exec_mem_of_storeOf_eq_none h hs)
  | some store =>
    obtain ⟨a, v⟩ := store
    obtain rfl : s.writeMem a v = t := by rw [exec_of_storeOf_eq_some hs] at h; cases h; rfl
    exact memStored_writeMem s a v hwf

/-- Settles O46: the first step ends in the state with v stored at the new pc, from which v is fetched and decoded. -/
theorem storeIsSeenByTheNextFetch : Obligations.StoreIsSeenByTheNextFetch := by
  intro s t i j v hwf hf hi hs hj h
  obtain rfl : s.advance.writeMem s.advance.pc v = t := by
    rw [step_of_decode_ok hf hi, exec_of_storeOf_eq_some hs] at h
    cases h
    rfl
  have hfetch : (s.advance.writeMem s.advance.pc v).fetchWord = v := State.fetchWord_writeMem_pc hwf
  exact step_of_decode_ok hf (hfetch.symm ▸ hj)

end Sys2Proof.Machine
end

/-! # Proofs of the encoding's family (spec/30_encoding.md) -/

section
/-! ## The formats of a word

Every word has one of the formats R76 to R85 or an opcode or trap code that is rejected. The laws of decode and encode are
read off from the formats. -/

namespace Sys2Proof

/-! The operate formats, whose last six bits are a mode bit and five others. -/

theorem opcodeOf_operate (o : BitVec 4) (a b : BitVec 3) (m : BitVec 1) (r : BitVec 5) :
    opcodeOf (o ++ a ++ b ++ m ++ r) = o := by
  rw [reassoc_operate, opcodeOf_reg6]

theorem regHigh_operate (o : BitVec 4) (a b : BitVec 3) (m : BitVec 1) (r : BitVec 5) :
    regHigh (o ++ a ++ b ++ m ++ r) = a := by
  rw [reassoc_operate, regHigh_reg6]

theorem regMid_operate (o : BitVec 4) (a b : BitVec 3) (m : BitVec 1) (r : BitVec 5) :
    regMid (o ++ a ++ b ++ m ++ r) = b := by
  rw [reassoc_operate, regMid_reg6]

theorem maskField_reg9 (o : BitVec 4) (m : BitVec 3) (r : BitVec 9) : maskField (o ++ m ++ r) = m := regHigh_reg9 o m r

/-- The word w has the format of i (R76 to R86); canonical says that its ignored bits hold the encoder's values (R95). -/
inductive Format : (canonical : Prop) → Word → Instr → Prop where
  | addReg (d s t : Reg) (x : BitVec 2) : Format (x = 0#2) (0x1#4 ++ d ++ s ++ 0#1 ++ x ++ t) (.addReg d s t)
  | addImm (d s : Reg) (f : BitVec 5) : Format True (0x1#4 ++ d ++ s ++ 1#1 ++ f) (.addImm d s (f.signExtend 16))
  | andReg (d s t : Reg) (x : BitVec 2) : Format (x = 0#2) (0x5#4 ++ d ++ s ++ 0#1 ++ x ++ t) (.andReg d s t)
  | andImm (d s : Reg) (f : BitVec 5) : Format True (0x5#4 ++ d ++ s ++ 1#1 ++ f) (.andImm d s (f.signExtend 16))
  | not (d s : Reg) (x : BitVec 6) : Format (x = 0b111111#6) (0x9#4 ++ d ++ s ++ x) (.not d s)
  | br (m : BitVec 3) (f : BitVec 9) : Format True (0x0#4 ++ m ++ f) (.br m (f.signExtend 16))
  | jmp (x : BitVec 3) (b : Reg) (y : BitVec 6) : Format (x = 0#3 ∧ y = 0#6) (0xC#4 ++ x ++ b ++ y) (.jmp b)
  | jsr (f : BitVec 11) : Format True (0x4#4 ++ 1#1 ++ f) (.jsr (f.signExtend 16))
  | jsrr (x : BitVec 2) (b : Reg) (y : BitVec 6) : Format (x = 0#2 ∧ y = 0#6) (0x4#4 ++ 0#1 ++ x ++ b ++ y) (.jsrr b)
  | ld (d : Reg) (f : BitVec 9) : Format True (0x2#4 ++ d ++ f) (.ld d (f.signExtend 16))
  | ldi (d : Reg) (f : BitVec 9) : Format True (0xA#4 ++ d ++ f) (.ldi d (f.signExtend 16))
  | ldr (d b : Reg) (f : BitVec 6) : Format True (0x6#4 ++ d ++ b ++ f) (.ldr d b (f.signExtend 16))
  | lea (d : Reg) (f : BitVec 9) : Format True (0xE#4 ++ d ++ f) (.lea d (f.signExtend 16))
  | st (d : Reg) (f : BitVec 9) : Format True (0x3#4 ++ d ++ f) (.st d (f.signExtend 16))
  | sti (d : Reg) (f : BitVec 9) : Format True (0xB#4 ++ d ++ f) (.sti d (f.signExtend 16))
  | str (d b : Reg) (f : BitVec 6) : Format True (0x7#4 ++ d ++ b ++ f) (.str d b (f.signExtend 16))
  | trap (x : BitVec 4) (v : Byte) (i : Instr) (h : decodeTrap v = .ok i) : Format (x = 0#4) (0xF#4 ++ x ++ v) i

variable {c : Prop} {w : Word} {i : Instr}

/-- A word of a format decodes to the format's instruction, whatever its ignored bits hold. -/
theorem Format.decode_eq (h : Format c w i) : decode w = .ok i := by
  cases h with
  | addReg d s t x =>
    rw [decode_opcode1 _ (by rw [reassoc_operateReg, opcodeOf_operate]), regLow_append, reassoc_operateReg, mode5_append,
      regHigh_operate, regMid_operate]
    rfl
  | addImm d s f =>
    rw [decode_opcode1 _ (opcodeOf_operate ..), mode5_append, regHigh_operate, regMid_operate, imm5Of, low5_append]
    rfl
  | andReg d s t x =>
    rw [decode_opcode5 _ (by rw [reassoc_operateReg, opcodeOf_operate]), regLow_append, reassoc_operateReg, mode5_append,
      regHigh_operate, regMid_operate]
    rfl
  | andImm d s f =>
    rw [decode_opcode5 _ (opcodeOf_operate ..), mode5_append, regHigh_operate, regMid_operate, imm5Of, low5_append]
    rfl
  | not d s x => rw [decode_opcode9 _ (opcodeOf_reg6 ..), regHigh_reg6, regMid_reg6]
  | br m f => rw [decode_opcode0 _ (opcodeOf_reg9 ..), maskField_reg9, offset9Of, low9_reg9]
  | jmp x b y => rw [decode_opcodeC _ (opcodeOf_reg6 ..), regMid_reg6]
  | jsr f =>
    rw [decode_opcode4 _ (opcodeOf_jsr ..), mode11_append, offset11Of, low11_append]
    rfl
  | jsrr x b y =>
    rw [decode_opcode4 _ (by rw [reassoc_jsrr, opcodeOf_jsr]), regMid_jsrr, reassoc_jsrr, mode11_append]
    rfl
  | ld d f => rw [decode_opcode2 _ (opcodeOf_reg9 ..), regHigh_reg9, offset9Of, low9_reg9]
  | ldi d f => rw [decode_opcodeA _ (opcodeOf_reg9 ..), regHigh_reg9, offset9Of, low9_reg9]
  | ldr d b f => rw [decode_opcode6 _ (opcodeOf_reg6 ..), regHigh_reg6, regMid_reg6, offset6Of, low6_reg6]
  | lea d f => rw [decode_opcodeE _ (opcodeOf_reg9 ..), regHigh_reg9, offset9Of, low9_reg9]
  | st d f => rw [decode_opcode3 _ (opcodeOf_reg9 ..), regHigh_reg9, offset9Of, low9_reg9]
  | sti d f => rw [decode_opcodeB _ (opcodeOf_reg9 ..), regHigh_reg9, offset9Of, low9_reg9]
  | str d b f => rw [decode_opcode7 _ (opcodeOf_reg6 ..), regHigh_reg6, regMid_reg6, offset6Of, low6_reg6]
  | trap x v i hv => rw [decode_opcodeF _ (opcodeOf_trap ..), trapVector_append, hv]

/-! A word is the concatenation of its fields. -/

theorem reg9_split (w : Word) : opcodeOf w ++ regHigh w ++ w.extractLsb' 0 9 = w := by
  apply BitVec.eq_of_toNat_eq
  simp only [opcodeOf, regHigh, field_toNat, append_toNat]
  have := w.isLt; omega

theorem reg6_split (w : Word) : opcodeOf w ++ regHigh w ++ regMid w ++ w.extractLsb' 0 6 = w := by
  apply BitVec.eq_of_toNat_eq
  simp only [opcodeOf, regHigh, regMid, field_toNat, append_toNat]
  have := w.isLt; omega

theorem trap_split (w : Word) : opcodeOf w ++ w.extractLsb' 8 4 ++ trapVector w = w := by
  apply BitVec.eq_of_toNat_eq
  simp only [opcodeOf, trapVector, field_toNat, append_toNat]
  have := w.isLt; omega

theorem operate_split (w : Word) :
    opcodeOf w ++ regHigh w ++ regMid w ++ BitVec.ofBool (immediateMode w) ++ w.extractLsb' 0 5 = w := by
  rw [reassoc_operate]
  refine Eq.trans ?_ (reg6_split w)
  congr 1
  apply BitVec.eq_of_toNat_eq
  rw [append_toNat, field_toNat, field_toNat, BitVec.toNat_ofBool, immediateMode, BitVec.getLsbD, Nat.toNat_testBit]
  omega

theorem operateReg_split (w : Word) (h : immediateMode w = false) :
    opcodeOf w ++ regHigh w ++ regMid w ++ 0#1 ++ w.extractLsb' 3 2 ++ regLow w = w := by
  have hlow : w.extractLsb' 3 2 ++ regLow w = w.extractLsb' 0 5 := by
    apply BitVec.eq_of_toNat_eq
    simp only [regLow, field_toNat, append_toNat]
    omega
  rw [reassoc_operateReg, hlow]
  simpa [h] using operate_split w

theorem operateImm_split (w : Word) (h : immediateMode w = true) :
    opcodeOf w ++ regHigh w ++ regMid w ++ 1#1 ++ w.extractLsb' 0 5 = w := by
  simpa [h] using operate_split w

theorem jsr_split (w : Word) : opcodeOf w ++ BitVec.ofBool (offsetMode w) ++ w.extractLsb' 0 11 = w := by
  apply BitVec.eq_of_toNat_eq
  simp only [opcodeOf, field_toNat, append_toNat, BitVec.toNat_ofBool, offsetMode, BitVec.getLsbD, Nat.toNat_testBit]
  have := w.isLt; omega

theorem jsrr_split (w : Word) (h : offsetMode w = false) :
    opcodeOf w ++ 0#1 ++ w.extractLsb' 9 2 ++ regMid w ++ w.extractLsb' 0 6 = w := by
  have hlow : w.extractLsb' 9 2 ++ regMid w ++ w.extractLsb' 0 6 = w.extractLsb' 0 11 := by
    apply BitVec.eq_of_toNat_eq
    simp only [regMid, field_toNat, append_toNat]
    omega
  rw [reassoc_jsrr, hlow]
  simpa [h] using jsr_split w

/-- A word with a rejected opcode or trap code (R90, R91). -/
inductive Rejected (w : Word) : DecodeFault → Prop where
  | opcode (h : opcodeOf w = 0x8#4 ∨ opcodeOf w = 0xD#4) : Rejected w .unrecognizedOpcode
  | trapCode (h : opcodeOf w = 0xF#4) (hv : (trapVector w).toNat < 0x20 ∨ 0x25 < (trapVector w).toNat) :
      Rejected w .unrecognizedTrapCode

/-- The low byte is one of the six trap codes or outside their range (R86, R91). -/
theorem decodeTrap_cases (v : Byte) :
    (0x20 ≤ v.toNat ∧ v.toNat ≤ 0x25 ∧ ∃ i, decodeTrap v = .ok i) ∨
    ((v.toNat < 0x20 ∨ 0x25 < v.toNat) ∧ decodeTrap v = .error .unrecognizedTrapCode) := by
  unfold decodeTrap
  split
  case h_7 h0 h1 h2 h3 h4 h5 =>
    simp only [imp_false] at h0 h1 h2 h3 h4 h5
    exact .inr ⟨by bv_omega, rfl⟩
  all_goals exact .inl ⟨by decide, by decide, _, rfl⟩

theorem Format.exists_of_eq {v : Word} (h : Format c v i) (hv : v = w) : ∃ c i, Format c w i := ⟨c, i, hv ▸ h⟩

/-- Every word has a format or is rejected (R89). -/
theorem format_or_rejected (w : Word) : (∃ c i, Format c w i) ∨ ∃ f, Rejected w f := by
  have h9 := reg9_split w
  have h6 := reg6_split w
  obtain ho | ho | ho | ho | ho | ho | ho | ho | ho | ho | ho | ho | ho | ho | ho | ho := opcode_cases (opcodeOf w) <;>
    rw [ho] at h9 h6
  · exact .inl ((Format.br _ _).exists_of_eq h9)
  · cases hm : immediateMode w with
    | true => exact .inl ((Format.addImm _ _ _).exists_of_eq (ho ▸ operateImm_split w hm))
    | false => exact .inl ((Format.addReg _ _ _ _).exists_of_eq (ho ▸ operateReg_split w hm))
  · exact .inl ((Format.ld _ _).exists_of_eq h9)
  · exact .inl ((Format.st _ _).exists_of_eq h9)
  · cases hm : offsetMode w with
    | true => exact .inl ((Format.jsr _).exists_of_eq (by simpa [ho, hm] using jsr_split w))
    | false => exact .inl ((Format.jsrr _ _ _).exists_of_eq (ho ▸ jsrr_split w hm))
  · cases hm : immediateMode w with
    | true => exact .inl ((Format.andImm _ _ _).exists_of_eq (ho ▸ operateImm_split w hm))
    | false => exact .inl ((Format.andReg _ _ _ _).exists_of_eq (ho ▸ operateReg_split w hm))
  · exact .inl ((Format.ldr _ _ _).exists_of_eq h6)
  · exact .inl ((Format.str _ _ _).exists_of_eq h6)
  · exact .inr ⟨_, .opcode (.inl ho)⟩
  · exact .inl ((Format.not _ _ _).exists_of_eq h6)
  · exact .inl ((Format.ldi _ _).exists_of_eq h9)
  · exact .inl ((Format.sti _ _).exists_of_eq h9)
  · exact .inl ((Format.jmp _ _ _).exists_of_eq h6)
  · exact .inr ⟨_, .opcode (.inr ho)⟩
  · exact .inl ((Format.lea _ _).exists_of_eq h9)
  · obtain ⟨-, -, i, hv⟩ | ⟨hv, -⟩ := decodeTrap_cases (trapVector w)
    · exact .inl ((Format.trap _ _ i hv).exists_of_eq (ho ▸ trap_split w))
    · exact .inr ⟨_, .trapCode ho hv⟩

theorem Rejected.decode_eq {f : DecodeFault} (h : Rejected w f) : decode w = .error f := by
  cases h with
  | opcode h =>
    obtain h | h := h
    · exact decode_opcode8 w h
    · exact decode_opcodeD w h
  | trapCode h hv =>
    obtain ⟨hlo, hhi, -⟩ | ⟨-, he⟩ := decodeTrap_cases (trapVector w)
    · omega
    · rw [decode_opcodeF w h, he]

theorem decode_eq_ok_iff : decode w = .ok i ↔ ∃ c, Format c w i := by
  refine ⟨fun h => ?_, fun ⟨_, hf⟩ => hf.decode_eq⟩
  obtain ⟨c, j, hf⟩ | ⟨f, hr⟩ := format_or_rejected w
  · rw [hf.decode_eq] at h
    cases h
    exact ⟨c, hf⟩
  · rw [hr.decode_eq] at h
    cases h

theorem decode_eq_error_iff {f : DecodeFault} : decode w = .error f ↔ Rejected w f := by
  refine ⟨fun h => ?_, Rejected.decode_eq⟩
  obtain ⟨c, j, hf⟩ | ⟨g, hr⟩ := format_or_rejected w
  · rw [hf.decode_eq] at h
    cases h
  · rw [hr.decode_eq] at h
    cases h
    exact hr

/-! Operands: what the fields hold fits them, and what fits them is held. -/

theorem wf_of_decodeTrap {v : Byte} (h : decodeTrap v = .ok i) : i.wf = true := by
  unfold decodeTrap at h
  split at h <;> cases h <;> rfl

theorem encode_of_decodeTrap {v : Byte} (h : decodeTrap v = .ok i) : encode i = 0xF#4 ++ 0#4 ++ v := by
  unfold decodeTrap at h
  split at h <;> cases h <;> rfl

theorem Format.wf (h : Format c w i) : i.wf = true := by
  cases h with
  | addReg | andReg | not | jmp | jsrr => rfl
  | addImm _ _ f | andImm _ _ f => exact isImm5_signExtend f
  | br _ f | ld _ f | ldi _ f | lea _ f | st _ f | sti _ f => exact isOffset9_signExtend f
  | jsr f => exact isOffset11_signExtend f
  | ldr _ _ f | str _ _ f => exact isOffset6_signExtend f
  | trap _ _ _ hv => exact wf_of_decodeTrap hv

theorem lowBits_signExtend {n : Nat} (hn : n ≤ 16) (f : BitVec n) : lowBits n (f.signExtend 16) = f := by
  apply BitVec.eq_of_getLsbD_eq
  intro k hk
  have hk16 : k < 16 := by omega
  simp [lowBits, hk, hk16, BitVec.getElem_signExtend]

/-- The encoder gives a canonical word of the format back (R95). -/
theorem Format.encode_eq (h : Format c w i) (hc : c) : encode i = w := by
  cases h with
  | addReg | andReg | not => rw [hc]; rfl
  | jmp | jsrr => obtain ⟨rfl, rfl⟩ := hc; rfl
  | addImm | andImm | br | ld | ldi | lea | st | sti | jsr | ldr | str => rw [encode, lowBits_signExtend (by decide)]
  | trap x v i hv => rw [hc]; exact encode_of_decodeTrap hv

/-- The encoder's word has a format in canonical form, which is that of the instruction itself where it is well-formed. -/
theorem format_encode (i : Instr) : ∃ c j, Format c (encode i) j ∧ c ∧ (i.wf = true → j = i) := by
  cases i with
  | addReg d s t => exact ⟨_, _, .addReg d s t _, rfl, fun _ => rfl⟩
  | addImm d s v => exact ⟨_, _, .addImm d s _, trivial, fun h => by rw [signExtend_lowBits_5 v h]⟩
  | andReg d s t => exact ⟨_, _, .andReg d s t _, rfl, fun _ => rfl⟩
  | andImm d s v => exact ⟨_, _, .andImm d s _, trivial, fun h => by rw [signExtend_lowBits_5 v h]⟩
  | not d s => exact ⟨_, _, .not d s _, rfl, fun _ => rfl⟩
  | br m v => exact ⟨_, _, .br m _, trivial, fun h => by rw [signExtend_lowBits_9 v h]⟩
  | jmp b => exact ⟨_, _, .jmp _ b _, ⟨rfl, rfl⟩, fun _ => rfl⟩
  | jsr v => exact ⟨_, _, .jsr _, trivial, fun h => by rw [signExtend_lowBits_11 v h]⟩
  | jsrr b => exact ⟨_, _, .jsrr _ b _, ⟨rfl, rfl⟩, fun _ => rfl⟩
  | ld d v => exact ⟨_, _, .ld d _, trivial, fun h => by rw [signExtend_lowBits_9 v h]⟩
  | ldi d v => exact ⟨_, _, .ldi d _, trivial, fun h => by rw [signExtend_lowBits_9 v h]⟩
  | ldr d b v => exact ⟨_, _, .ldr d b _, trivial, fun h => by rw [signExtend_lowBits_6 v h]⟩
  | lea d v => exact ⟨_, _, .lea d _, trivial, fun h => by rw [signExtend_lowBits_9 v h]⟩
  | st d v => exact ⟨_, _, .st d _, trivial, fun h => by rw [signExtend_lowBits_9 v h]⟩
  | sti d v => exact ⟨_, _, .sti d _, trivial, fun h => by rw [signExtend_lowBits_9 v h]⟩
  | str d b v => exact ⟨_, _, .str d b _, trivial, fun h => by rw [signExtend_lowBits_6 v h]⟩
  | trapGetc | trapOut | trapPuts | trapIn | trapPutsp | trapHalt => exact ⟨_, _, .trap 0#4 _ _ rfl, rfl, fun _ => rfl⟩

/-! The ignored bits of each format. -/

theorem ignoredMask_operate (h : opcodeOf w = 0x1#4 ∨ opcodeOf w = 0x5#4) :
    ignoredMask w = if immediateMode w then 0x0000 else 0x0018 := by
  obtain h | h := h <;> rw [ignoredMask, h] <;> rfl

theorem ignoredMask_opcode4 (h : opcodeOf w = 0x4#4) : ignoredMask w = if offsetMode w then 0x0000 else 0x063F := by
  rw [ignoredMask, h]; rfl

theorem ignoredMask_opcode9 (h : opcodeOf w = 0x9#4) : ignoredMask w = 0x003F := by
  rw [ignoredMask, h]; rfl

theorem ignoredMask_opcodeC (h : opcodeOf w = 0xC#4) : ignoredMask w = 0x0E3F := by
  rw [ignoredMask, h]; rfl

theorem ignoredMask_opcodeF (h : opcodeOf w = 0xF#4) : ignoredMask w = 0x0F00 := by
  rw [ignoredMask, h]; rfl

theorem ignoredMask_other (h : opcodeOf w ∉ [0x1#4, 0x4#4, 0x5#4, 0x9#4, 0xC#4, 0xF#4]) : ignoredMask w = 0x0000 := by
  unfold ignoredMask
  split <;> simp_all

theorem append_inj_iff {m n : Nat} {x x' : BitVec m} {y y' : BitVec n} : x ++ y = x' ++ y' ↔ x = x' ∧ y = y' := by
  refine ⟨fun h => ⟨?_, ?_⟩, fun ⟨hx, hy⟩ => hx ▸ hy ▸ rfl⟩
  · have := congrArg (BitVec.extractLsb' n m) h
    rwa [BitVec.extractLsb'_append_eq_left, BitVec.extractLsb'_append_eq_left] at this
  · have := congrArg (BitVec.extractLsb' 0 n) h
    rwa [BitVec.extractLsb'_append_eq_right, BitVec.extractLsb'_append_eq_right] at this

/-- Where the opcode is not Not's, the ignored bits are to hold 0. -/
theorem isCanonical_iff_and_eq_zero (h : opcodeOf w ≠ 0x9#4) : isCanonical w = true ↔ w &&& ignoredMask w = 0 := by
  rw [isCanonical, beq_iff_eq, canonicalIgnored, if_neg h]

theorem isCanonical_of_ignoredMask_eq_zero (h : opcodeOf w ≠ 0x9#4) (hm : ignoredMask w = 0) : isCanonical w = true := by
  rw [isCanonical_iff_and_eq_zero h, hm]
  exact BitVec.and_zero

theorem isCanonical_operateReg {o : BitVec 4} (ho : o = 0x1#4 ∨ o = 0x5#4) (d s t : Reg) (x : BitVec 2) :
    isCanonical (o ++ d ++ s ++ 0#1 ++ x ++ t) = true ↔ x = 0#2 := by
  have hop : opcodeOf (o ++ d ++ s ++ 0#1 ++ x ++ t) = o := by rw [reassoc_operateReg, opcodeOf_operate]
  have hmode : immediateMode (o ++ d ++ s ++ 0#1 ++ x ++ t) = false := by rw [reassoc_operateReg, mode5_append]; rfl
  have hmask : ignoredMask (o ++ d ++ s ++ 0#1 ++ x ++ t) = 0#4 ++ 0#3 ++ 0#3 ++ 0#1 ++ BitVec.allOnes 2 ++ 0#3 := by
    rw [ignoredMask_operate (hop.symm ▸ ho), hmode]
    rfl
  rw [isCanonical_iff_and_eq_zero (by rw [hop]; obtain rfl | rfl := ho <;> decide), hmask]
  show (o ++ d ++ s ++ 0#1 ++ x ++ t) &&& (0#4 ++ 0#3 ++ 0#3 ++ 0#1 ++ BitVec.allOnes 2 ++ 0#3) =
    0#4 ++ 0#3 ++ 0#3 ++ 0#1 ++ 0#2 ++ 0#3 ↔ _
  simp only [BitVec.and_append, BitVec.and_zero, BitVec.and_allOnes, append_inj_iff, true_and, and_true]

theorem Format.isCanonical_iff (h : Format c w i) : isCanonical w = true ↔ c := by
  cases h with
  | addReg d s t x => exact isCanonical_operateReg (.inl rfl) d s t x
  | andReg d s t x => exact isCanonical_operateReg (.inr rfl) d s t x
  | not d s x =>
    have hop := opcodeOf_reg6 0x9#4 d s x
    rw [isCanonical, beq_iff_eq, canonicalIgnored, if_pos hop, ignoredMask_opcode9 hop]
    show (0x9#4 ++ d ++ s ++ x) &&& (0#4 ++ 0#3 ++ 0#3 ++ BitVec.allOnes 6) = 0#4 ++ 0#3 ++ 0#3 ++ 0x3F#6 ↔ _
    simp only [BitVec.and_append, BitVec.and_zero, BitVec.and_allOnes, append_inj_iff, true_and]
  | jmp x b y =>
    have hop := opcodeOf_reg6 0xC#4 x b y
    rw [isCanonical_iff_and_eq_zero (by rw [hop]; decide), ignoredMask_opcodeC hop]
    show (0xC#4 ++ x ++ b ++ y) &&& (0#4 ++ BitVec.allOnes 3 ++ 0#3 ++ BitVec.allOnes 6) = 0#4 ++ 0#3 ++ 0#3 ++ 0#6 ↔ _
    simp only [BitVec.and_append, BitVec.and_zero, BitVec.and_allOnes, append_inj_iff, true_and, and_true]
  | jsrr x b y =>
    have hop : opcodeOf (0x4#4 ++ 0#1 ++ x ++ b ++ y) = 0x4#4 := by rw [reassoc_jsrr, opcodeOf_jsr]
    have hmode : offsetMode (0x4#4 ++ 0#1 ++ x ++ b ++ y) = false := by rw [reassoc_jsrr, mode11_append]; rfl
    rw [isCanonical_iff_and_eq_zero (by rw [hop]; decide), ignoredMask_opcode4 hop, hmode]
    show (0x4#4 ++ 0#1 ++ x ++ b ++ y) &&& (0#4 ++ 0#1 ++ BitVec.allOnes 2 ++ 0#3 ++ BitVec.allOnes 6) =
      0#4 ++ 0#1 ++ 0#2 ++ 0#3 ++ 0#6 ↔ _
    simp only [BitVec.and_append, BitVec.and_zero, BitVec.and_allOnes, append_inj_iff, true_and, and_true]
  | trap x v i hv =>
    have hop := opcodeOf_trap 0xF#4 x v
    rw [isCanonical_iff_and_eq_zero (by rw [hop]; decide), ignoredMask_opcodeF hop]
    show (0xF#4 ++ x ++ v) &&& (0#4 ++ BitVec.allOnes 4 ++ 0#8) = 0#4 ++ 0#4 ++ 0#8 ↔ _
    simp only [BitVec.and_append, BitVec.and_zero, BitVec.and_allOnes, append_inj_iff, true_and, and_true]
  | addImm d s f =>
    have hop := opcodeOf_operate 0x1#4 d s 1#1 f
    refine iff_true_intro (isCanonical_of_ignoredMask_eq_zero (by rw [hop]; decide) ?_)
    rw [ignoredMask_operate (.inl hop), mode5_append]
    rfl
  | andImm d s f =>
    have hop := opcodeOf_operate 0x5#4 d s 1#1 f
    refine iff_true_intro (isCanonical_of_ignoredMask_eq_zero (by rw [hop]; decide) ?_)
    rw [ignoredMask_operate (.inr hop), mode5_append]
    rfl
  | jsr f =>
    have hop := opcodeOf_jsr 0x4#4 1#1 f
    refine iff_true_intro (isCanonical_of_ignoredMask_eq_zero (by rw [hop]; decide) ?_)
    rw [ignoredMask_opcode4 hop, mode11_append]
    rfl
  | br | ld | ldi | lea | st | sti =>
    exact iff_true_intro (isCanonical_of_ignoredMask_eq_zero (by rw [opcodeOf_reg9]; decide)
      (ignoredMask_other (by rw [opcodeOf_reg9]; decide)))
  | ldr | str =>
    exact iff_true_intro (isCanonical_of_ignoredMask_eq_zero (by rw [opcodeOf_reg6]; decide)
      (ignoredMask_other (by rw [opcodeOf_reg6]; decide)))

/-! Words that agree outside a mask have the same bits, and the same fields, outside it. -/

section
variable {v m : Word}

theorem bit_eq_of_agree (h : v &&& ~~~m = w &&& ~~~m) {k : Nat} (hm : m.getLsbD k = false) : v.getLsbD k = w.getLsbD k := by
  by_cases hk : k < 16
  · have hbit := congrArg (fun u => BitVec.getLsbD u k) h
    simpa only [BitVec.getLsbD_and, BitVec.getLsbD_not, hk, hm, decide_true, Bool.not_false, Bool.and_true] using hbit
  · rw [BitVec.getLsbD_of_ge v k (by omega), BitVec.getLsbD_of_ge w k (by omega)]

theorem field_eq_of_agree (h : v &&& ~~~m = w &&& ~~~m) {lo len : Nat} (hm : m.extractLsb' lo len = 0#len) :
    v.extractLsb' lo len = w.extractLsb' lo len := by
  apply BitVec.eq_of_getLsbD_eq
  intro k hk
  have hbit := congrArg (fun u => BitVec.getLsbD u k) hm
  simp only [BitVec.getLsbD_extractLsb', hk, decide_true, Bool.true_and, BitVec.getLsbD_zero] at hbit ⊢
  exact bit_eq_of_agree h hbit

theorem eq_of_agree_zero (h : v &&& ~~~m = w &&& ~~~m) (hm : m = 0) : v = w :=
  BitVec.eq_of_getLsbD_eq fun _ _ => bit_eq_of_agree h (hm ▸ BitVec.getLsbD_zero)

/-- No opcode bit is ignored. -/
theorem opcodeOf_ignoredMask (w : Word) : opcodeOf (ignoredMask w) = 0#4 := by
  unfold ignoredMask
  split
  case h_1 | h_2 | h_5 => split <;> rfl
  all_goals rfl

/-- The mode bit of Add and And is not ignored, and in the immediate form nothing is. -/
theorem operate_eq_of_agree (ho : opcodeOf w = 0x1#4 ∨ opcodeOf w = 0x5#4)
    (h : v &&& ~~~(ignoredMask w) = w &&& ~~~(ignoredMask w)) :
    v = w ∨ (immediateMode w = false ∧ immediateMode v = false ∧ regHigh v = regHigh w ∧ regMid v = regMid w ∧
      regLow v = regLow w) := by
  rw [ignoredMask_operate ho] at h
  cases hmode : immediateMode w with
  | true => exact .inl (eq_of_agree_zero h (by rw [hmode]; rfl))
  | false =>
    rw [hmode] at h
    exact .inr ⟨rfl, (bit_eq_of_agree h (by decide)).trans hmode, field_eq_of_agree h (by decide), field_eq_of_agree h (by decide),
      field_eq_of_agree h (by decide)⟩

/-- Decode reads no ignored bit (R92). -/
theorem decode_eq_of_agree (h : v &&& ~~~(ignoredMask w) = w &&& ~~~(ignoredMask w)) : decode v = decode w := by
  have hop : opcodeOf v = opcodeOf w := field_eq_of_agree h (opcodeOf_ignoredMask w)
  by_cases hmem : opcodeOf w ∈ [0x1#4, 0x4#4, 0x5#4, 0x9#4, 0xC#4, 0xF#4]
  · simp only [List.mem_cons, List.not_mem_nil, or_false] at hmem
    obtain ho | ho | ho | ho | ho | ho := hmem
    · obtain rfl | ⟨hw, hv, hhigh, hmid, hlow⟩ := operate_eq_of_agree (.inl ho) h
      · rfl
      · rw [decode_opcode1 v (hop.trans ho), decode_opcode1 w ho, hw, hv, hhigh, hmid, hlow,
          if_neg Bool.false_ne_true, if_neg Bool.false_ne_true]
    · rw [ignoredMask_opcode4 ho] at h
      cases hmode : offsetMode w with
      | true => rw [eq_of_agree_zero h (by rw [hmode]; rfl)]
      | false =>
        rw [hmode] at h
        have hv : offsetMode v = false := (bit_eq_of_agree h (by decide)).trans hmode
        have hmid : regMid v = regMid w := field_eq_of_agree h (by decide)
        rw [decode_opcode4 v (hop.trans ho), decode_opcode4 w ho, hmode, hv, hmid,
          if_neg Bool.false_ne_true, if_neg Bool.false_ne_true]
    · obtain rfl | ⟨hw, hv, hhigh, hmid, hlow⟩ := operate_eq_of_agree (.inr ho) h
      · rfl
      · rw [decode_opcode5 v (hop.trans ho), decode_opcode5 w ho, hw, hv, hhigh, hmid, hlow,
          if_neg Bool.false_ne_true, if_neg Bool.false_ne_true]
    · rw [ignoredMask_opcode9 ho] at h
      have hhigh : regHigh v = regHigh w := field_eq_of_agree h (by decide)
      have hmid : regMid v = regMid w := field_eq_of_agree h (by decide)
      rw [decode_opcode9 v (hop.trans ho), decode_opcode9 w ho, hhigh, hmid]
    · rw [ignoredMask_opcodeC ho] at h
      have hmid : regMid v = regMid w := field_eq_of_agree h (by decide)
      rw [decode_opcodeC v (hop.trans ho), decode_opcodeC w ho, hmid]
    · rw [ignoredMask_opcodeF ho] at h
      have htrap : trapVector v = trapVector w := field_eq_of_agree h (by decide)
      rw [decode_opcodeF v (hop.trans ho), decode_opcodeF w ho, htrap]
  · rw [eq_of_agree_zero h (ignoredMask_other hmem)]

end

end Sys2Proof
end

section
/-! ## The laws of decode and encode -/

namespace Sys2Proof

/-- Settles O4: the encoder's word has the format of the instruction, and a format decodes to its instruction. -/
theorem decodeOfEncodeIsIdentity : Obligations.DecodeOfEncodeIsIdentity := by
  intro i hwf
  obtain ⟨c, j, hf, -, hj⟩ := format_encode i
  rw [hf.decode_eq, hj hwf]

/-- Settles O5: a decoded word has a format, which the encoder gives back where it is canonical; what the encoder writes is
decoded, so its opcode is not a rejected one. -/
theorem encodeOfDecodeIsIdentity : Obligations.EncodeOfDecodeIsIdentity := by
  refine ⟨fun w i hd hcan => ?_, fun i => ?_⟩
  · obtain ⟨c, hf⟩ := decode_eq_ok_iff.mp hd
    exact hf.encode_eq (hf.isCanonical_iff.mp hcan)
  · obtain ⟨c, j, hf, hc, -⟩ := format_encode i
    have hnot : ¬ Rejected (encode i) .unrecognizedOpcode := by
      intro hr
      have hok := hf.decode_eq
      rw [hr.decode_eq] at hok
      cases hok
    exact ⟨hf.isCanonical_iff.mpr hc, fun h => hnot (.opcode (.inl h)), fun h => hnot (.opcode (.inr h))⟩

/-- Settles O6: decode reads no ignored bit. -/
theorem ignoredBitsDoNotMatter : Obligations.IgnoredBitsDoNotMatter := fun _ _ => decode_eq_of_agree

/-- Settles O12: a decoded word has a format, and the operands of a format fit. -/
theorem decodedOperandsFit : Obligations.DecodedOperandsFit := by
  intro w i hd
  obtain ⟨c, hf⟩ := decode_eq_ok_iff.mp hd
  exact hf.wf

/-- Settles O8: each word has the format. -/
theorem operateFormats : Obligations.OperateFormats :=
  ⟨fun d s t x => ⟨(Format.addReg d s t x).decode_eq, (Format.andReg d s t x).decode_eq, rfl, rfl⟩,
    fun d s f => ⟨(Format.addImm d s f).decode_eq, (Format.andImm d s f).decode_eq⟩,
    fun d s x => ⟨(Format.not d s x).decode_eq, rfl⟩⟩

/-- Settles O9: each word has the format. -/
theorem loadStoreFormats : Obligations.LoadStoreFormats :=
  ⟨fun d f => ⟨(Format.ld d f).decode_eq, (Format.ldi d f).decode_eq, (Format.lea d f).decode_eq, (Format.st d f).decode_eq,
      (Format.sti d f).decode_eq⟩,
    fun d b f => ⟨(Format.ldr d b f).decode_eq, (Format.str d b f).decode_eq⟩⟩

theorem reassoc_mask {o : BitVec 4} {n z p : BitVec 1} {f : BitVec 9} :
    (o ++ n ++ z ++ p ++ f : Word) = o ++ (n ++ z ++ p) ++ f := by
  apply BitVec.eq_of_toNat_eq
  simp only [append_toNat]
  omega

/-- Settles O10: each word has the format, Branch's with its three mask bits read as one field. -/
theorem controlFormats : Obligations.ControlFormats :=
  ⟨fun x b y => ⟨(Format.jmp x b y).decode_eq, rfl⟩, fun f => (Format.jsr f).decode_eq,
    fun x b y => ⟨(Format.jsrr x b y).decode_eq, rfl⟩,
    fun n z p f => by rw [reassoc_mask]; exact (Format.br (n ++ z ++ p) f).decode_eq, rfl, rfl, rfl⟩

theorem not_trapCode_of_not_mem {v : Byte} (h : v ∉ [0x20#8, 0x21#8, 0x22#8, 0x23#8, 0x24#8, 0x25#8]) :
    v.toNat < 0x20 ∨ 0x25 < v.toNat := by
  simp only [List.mem_cons, List.not_mem_nil, or_false, not_or] at h
  obtain ⟨h0, h1, h2, h3, h4, h5⟩ := h
  bv_omega

/-- Settles O11: the six words have the Trap format, and every other code is rejected. -/
theorem trapFormats : Obligations.TrapFormats := by
  refine ⟨fun x => ⟨(Format.trap x _ _ rfl).decode_eq, (Format.trap x _ _ rfl).decode_eq, (Format.trap x _ _ rfl).decode_eq,
    (Format.trap x _ _ rfl).decode_eq, (Format.trap x _ _ rfl).decode_eq, (Format.trap x _ _ rfl).decode_eq,
    fun v hv => ?_⟩, rfl, rfl, rfl, rfl, rfl, rfl⟩
  refine (Rejected.trapCode (opcodeOf_trap ..) ?_).decode_eq
  rw [trapVector_append]
  exact not_trapCode_of_not_mem hv

end Sys2Proof
end

section
/-! ## What a step makes of a word -/

namespace Sys2Proof.Machine

/-- A step of a core with no fault whose fetched word is rejected takes the decode fault (R211). -/
theorem step_of_decode_error {s : State} {c : DecodeFault} (hf : s.fault = none) (hd : decode s.fetchWord = .error c) :
    step s = .next (s.takeDecodeFault c) := by
  rw [step_of_noFault s hf, hd]

@[simp] theorem State.takeDecodeFault_fault (s : State) (c : DecodeFault) :
    (s.takeDecodeFault c).fault = some { cause := causeOf c, word := s.readMem s.pc, address := s.pc } := by
  rw [takeDecodeFault, raise_fault, advance_currentAddress, advance_readMem]

theorem trapCode_iff (v : Byte) : (v.toNat < 0x20 ∨ 0x25 < v.toNat) ↔ ¬ (0x20#8 ≤ v ∧ v ≤ 0x25#8) := by
  bv_omega

/-- Settles O7: a word fails to decode exactly when it is rejected, and its step takes the decode fault. -/
theorem rejectedWordsFault : Obligations.RejectedWordsFault := by
  refine ⟨fun w => decode_eq_error_iff.trans ⟨fun h => ?_, .opcode⟩, fun w => decode_eq_error_iff.trans
    ⟨fun h => ?_, fun ⟨hop, hv⟩ => .trapCode hop ((trapCode_iff _).mpr hv)⟩,
    fun s c hf hd => ⟨_, step_of_decode_error hf hd, s.takeDecodeFault_fault c⟩⟩
  · cases h with
    | opcode hop => exact hop
  · cases h with
    | trapCode hop hv => exact ⟨hop, (trapCode_iff _).mp hv⟩

theorem selectedBy_zero (c : Flag) : c.selectedBy 0b000#3 = false := by cases c <;> rfl

theorem selectedBy_full (c : Flag) : c.selectedBy 0b111#3 = true := by cases c <;> rfl

/-- A Branch with the empty mask is never taken (R94). -/
theorem exec_br_zero (off : Word) (s : State) : exec (.br 0b000#3 off) s = .next s := by
  show execBr 0b000#3 off s = .next s
  rw [execBr, selectedBy_zero]
  rfl

/-- Settles O34: by the two masks; the word 0x0000 is a Branch with mask 0b000. -/
theorem branchMaskExtremes : Obligations.BranchMaskExtremes := by
  refine ⟨fun s off => exec_br_zero off s, fun s hf hw => ?_, fun s off => ?_⟩
  · have hd : decode s.fetchWord = .ok (.br 0b000#3 0) := (congrArg decode hw).trans rfl
    exact (step_of_decode_ok hf hd).trans (exec_br_zero 0 s.advance)
  · show execBr 0b111#3 off s = _
    rw [execBr_eq_setPc, selectedBy_full]
    rfl

end Sys2Proof.Machine
end

section
/-! ## The assembler's operands

When each operand is refused and what an accepted one is; then the same of the two shapes of line that name registers. -/

namespace Sys2Proof.Machine

theorem asmReg_eq_none_iff {n : Nat} : asmReg n = none ↔ 7 < n := by
  rw [asmReg]
  split
  · exact iff_of_false (Option.some_ne_none _) (by omega)
  · exact iff_of_true rfl (by omega)

theorem asmReg_eq_some_iff {n : Nat} {r : Reg} : asmReg n = some r ↔ r.toNat = n := by
  rw [asmReg]
  split
  · next hn => rw [Option.some_inj, ← BitVec.toNat_inj, BitVec.toNat_ofNat, Nat.mod_eq_of_lt hn, eq_comm]
  · exact iff_of_false (Option.some_ne_none _).symm (by have := r.isLt; omega)

section
variable {lo hi : Int} {w : Word}

theorem signedWithin_eq_true_iff : signedWithin lo hi w = true ↔ lo ≤ w.toInt ∧ w.toInt ≤ hi := decide_eq_true_iff

theorem signedWithin_eq_false_iff : signedWithin lo hi w = false ↔ w.toInt < lo ∨ hi < w.toInt := by
  rw [← Bool.not_eq_true, signedWithin_eq_true_iff]
  omega

theorem asmNum_eq_some_iff {fits : Word → Bool} {v : Int} : asmNum fits v = some w ↔ w.toInt = v ∧ fits w = true := by
  unfold asmNum
  constructor
  · intro h
    split at h
    · next hfits =>
      cases h
      exact hfits
    · cases h
  · rintro ⟨rfl, hw⟩
    rw [BitVec.ofInt_toInt, if_pos ⟨rfl, hw⟩]

/-- A number is refused exactly outside the range, where the range is one of words. -/
theorem asmNum_eq_none_iff (hlo : -32768 ≤ lo) (hhi : hi ≤ 32767) {v : Int} :
    asmNum (signedWithin lo hi) v = none ↔ v < lo ∨ hi < v := by
  constructor
  · intro h
    refine Decidable.byContradiction fun hv => ?_
    have hword : (BitVec.ofInt 16 v).toInt = v := BitVec.toInt_ofInt_eq_self (by decide) (by omega) (by omega)
    have hsome : asmNum (signedWithin lo hi) v = some (BitVec.ofInt 16 v) :=
      asmNum_eq_some_iff.mpr ⟨hword, signedWithin_eq_true_iff.mpr (by omega)⟩
    rw [h] at hsome
    cases hsome
  · intro hv
    cases hw : asmNum (signedWithin lo hi) v with
    | none => rfl
    | some w =>
      obtain ⟨rfl, hfits⟩ := asmNum_eq_some_iff.mp hw
      have hrange := signedWithin_eq_true_iff.mp hfits
      omega

theorem asmLabel_eq_some_iff {fits : Word → Bool} {addr label : Word} :
    asmLabel fits addr label = some w ↔ w = label - (addr + 1) ∧ fits w = true := by
  unfold asmLabel
  constructor
  · intro h
    split at h
    · next hfits =>
      cases h
      exact ⟨rfl, hfits⟩
    · cases h
  · rintro ⟨rfl, hw⟩
    rw [if_pos hw]

theorem asmLabel_eq_none_iff {addr label : Word} :
    asmLabel (signedWithin lo hi) addr label = none ↔
      (label - (addr + 1)).toInt < lo ∨ hi < (label - (addr + 1)).toInt := by
  rw [← signedWithin_eq_false_iff, asmLabel]
  simp

end

/-- A line with one register and another operand. -/
def regLine {α : Type} (make : Reg → α → Instr) (r : Nat) (x : Option α) : Option Instr :=
  (asmReg r).bind fun d => x.map fun b => make d b

/-- A line with two registers and another operand. -/
def regRegLine {α : Type} (make : Reg → Reg → α → Instr) (r q : Nat) (x : Option α) : Option Instr :=
  (asmReg r).bind fun d => regLine (make d) q x

section
variable {α : Type} {r q : Nat} {x : Option α} {i : Instr}

theorem regLine_eq_none_iff {make : Reg → α → Instr} : regLine make r x = none ↔ 7 < r ∨ x = none := by
  rw [← asmReg_eq_none_iff, regLine]
  cases asmReg r with
  | none => simp
  | some d => simp

theorem regLine_eq_some_iff {make : Reg → α → Instr} :
    regLine make r x = some i ↔ ∃ d b, i = make d b ∧ d.toNat = r ∧ x = some b := by
  constructor
  · intro h
    obtain ⟨d, hd, h⟩ := Option.bind_eq_some_iff.mp h
    obtain ⟨b, hb, rfl⟩ := Option.map_eq_some_iff.mp h
    exact ⟨d, b, rfl, asmReg_eq_some_iff.mp hd, hb⟩
  · rintro ⟨d, b, rfl, hd, rfl⟩
    rw [regLine, asmReg_eq_some_iff.mpr hd]
    rfl

theorem regRegLine_eq_none_iff {make : Reg → Reg → α → Instr} :
    regRegLine make r q x = none ↔ 7 < r ∨ 7 < q ∨ x = none := by
  rw [← asmReg_eq_none_iff (n := r), regRegLine]
  cases asmReg r with
  | none => simp
  | some d => simp [regLine_eq_none_iff]

theorem regRegLine_eq_some_iff {make : Reg → Reg → α → Instr} :
    regRegLine make r q x = some i ↔ ∃ d a b, i = make d a b ∧ d.toNat = r ∧ a.toNat = q ∧ x = some b := by
  constructor
  · intro h
    obtain ⟨d, hd, h⟩ := Option.bind_eq_some_iff.mp h
    obtain ⟨a, b, hi, ha, hb⟩ := regLine_eq_some_iff.mp h
    exact ⟨d, a, b, hi, asmReg_eq_some_iff.mp hd, ha, hb⟩
  · rintro ⟨d, a, b, hi, hd, ha, hb⟩
    rw [regRegLine, asmReg_eq_some_iff.mpr hd]
    exact regLine_eq_some_iff.mpr ⟨a, b, hi, ha, hb⟩

end

/-- A trap code is refused exactly outside the six (R86, R96). -/
theorem assemble_trap_eq_none_iff {addr : Word} {code : Nat} :
    assemble addr (.trap code) = none ↔ code < 0x20 ∨ 0x25 < code := by
  rw [assemble]
  split
  · next hcode =>
    have hnat : (BitVec.ofNat 8 code).toNat = code := Nat.mod_eq_of_lt hcode
    obtain ⟨hlo, hhi, i, hi⟩ | ⟨hv, he⟩ := decodeTrap_cases (BitVec.ofNat 8 code)
    · rw [hnat] at hlo hhi
      rw [hi]
      exact iff_of_false (Option.some_ne_none i) (by omega)
    · rw [hnat] at hv
      rw [he]
      exact iff_of_true rfl hv
  · exact iff_of_true rfl (by omega)

theorem decodeTrap_of_assemble {addr : Word} {code : Nat} {i : Instr} (h : assemble addr (.trap code) = some i) :
    decodeTrap (BitVec.ofNat 8 code) = .ok i := by
  rw [assemble] at h
  split at h
  · cases hd : decodeTrap (BitVec.ofNat 8 code) with
    | ok j =>
      rw [hd] at h
      cases h
      rfl
    | error c =>
      rw [hd] at h
      cases h
  · cases h

/-- What any line assembles to is well-formed. -/
theorem wf_of_assemble {addr : Word} {line : AsmLine} {i : Instr} (h : assemble addr line = some i) : i.wf = true := by
  cases line with
  | add r q x | and r q x =>
    cases x with
    | reg n =>
      obtain ⟨d, a, b, rfl, -⟩ := regRegLine_eq_some_iff.mp h
      rfl
    | num v =>
      obtain ⟨d, a, w, rfl, -, -, hw⟩ := regRegLine_eq_some_iff.mp h
      exact (asmNum_eq_some_iff.mp hw).2
  | ldr r b v | str r b v =>
    obtain ⟨d, a, w, rfl, -, -, hw⟩ := regRegLine_eq_some_iff.mp h
    exact (asmNum_eq_some_iff.mp hw).2
  | not r q =>
    obtain ⟨d, a, rfl, -⟩ := regLine_eq_some_iff.mp h
    rfl
  | ld r l | ldi r l | lea r l | st r l | sti r l =>
    obtain ⟨d, o, rfl, -, ho⟩ := regLine_eq_some_iff.mp h
    exact (asmLabel_eq_some_iff.mp ho).2
  | br n z p l | jsr l =>
    obtain ⟨o, ho, rfl⟩ := Option.map_eq_some_iff.mp h
    exact (asmLabel_eq_some_iff.mp ho).2
  | jmp b | jsrr b =>
    obtain ⟨r, -, rfl⟩ := Option.map_eq_some_iff.mp h
    rfl
  | trap code => exact wf_of_decodeTrap (decodeTrap_of_assemble h)
  | ret | getc | out | puts | inn | putsp | halt | nop => cases h; rfl

end Sys2Proof.Machine
end

section
/-! ## What the assembler accepts -/

namespace Sys2Proof.Machine

variable {lo hi : Int}

theorem regRegReg_fits (make : Reg → Reg → Reg → Instr) (r q n : Nat) :
    (regRegLine make r q (asmReg n) = none ↔ 7 < r ∨ 7 < q ∨ 7 < n) ∧
    ∀ i, regRegLine make r q (asmReg n) = some i → ∃ d a b : Reg, i = make d a b ∧ d.toNat = r ∧ a.toNat = q ∧ b.toNat = n := by
  refine ⟨by rw [regRegLine_eq_none_iff, asmReg_eq_none_iff], fun i h => ?_⟩
  obtain ⟨d, a, b, hi, hd, ha, hb⟩ := regRegLine_eq_some_iff.mp h
  exact ⟨d, a, b, hi, hd, ha, asmReg_eq_some_iff.mp hb⟩

theorem regRegNum_fits (make : Reg → Reg → Word → Instr) (hlo : -32768 ≤ lo) (hhi : hi ≤ 32767) (r q : Nat) (v : Int) :
    (regRegLine make r q (asmNum (signedWithin lo hi) v) = none ↔ 7 < r ∨ 7 < q ∨ v < lo ∨ hi < v) ∧
    ∀ i, regRegLine make r q (asmNum (signedWithin lo hi) v) = some i →
      ∃ (d a : Reg) (w : Word), i = make d a w ∧ d.toNat = r ∧ a.toNat = q ∧ w.toInt = v := by
  refine ⟨by rw [regRegLine_eq_none_iff, asmNum_eq_none_iff hlo hhi], fun i h => ?_⟩
  obtain ⟨d, a, w, hi, hd, ha, hw⟩ := regRegLine_eq_some_iff.mp h
  exact ⟨d, a, w, hi, hd, ha, (asmNum_eq_some_iff.mp hw).1⟩

theorem regReg_fits (make : Reg → Reg → Instr) (r q : Nat) :
    (regLine make r (asmReg q) = none ↔ 7 < r ∨ 7 < q) ∧
    ∀ i, regLine make r (asmReg q) = some i → ∃ d a : Reg, i = make d a ∧ d.toNat = r ∧ a.toNat = q := by
  refine ⟨by rw [regLine_eq_none_iff, asmReg_eq_none_iff], fun i h => ?_⟩
  obtain ⟨d, a, hi, hd, ha⟩ := regLine_eq_some_iff.mp h
  exact ⟨d, a, hi, hd, asmReg_eq_some_iff.mp ha⟩

theorem reg_fits (make : Reg → Instr) (r : Nat) :
    ((asmReg r).map make = none ↔ 7 < r) ∧ ∀ i, (asmReg r).map make = some i → ∃ d : Reg, i = make d ∧ d.toNat = r := by
  refine ⟨by rw [Option.map_eq_none_iff, asmReg_eq_none_iff], fun i h => ?_⟩
  obtain ⟨d, hd, hi⟩ := Option.map_eq_some_iff.mp h
  exact ⟨d, hi.symm, asmReg_eq_some_iff.mp hd⟩

theorem regLabel_fits (make : Reg → Word → Instr) (r : Nat) (addr label : Word) :
    (regLine make r (asmLabel (signedWithin lo hi) addr label) = none ↔
      7 < r ∨ (label - (addr + 1)).toInt < lo ∨ hi < (label - (addr + 1)).toInt) ∧
    ∀ i, regLine make r (asmLabel (signedWithin lo hi) addr label) = some i →
      ∃ d : Reg, i = make d (label - (addr + 1)) ∧ d.toNat = r := by
  refine ⟨by rw [regLine_eq_none_iff, asmLabel_eq_none_iff], fun i h => ?_⟩
  obtain ⟨d, o, rfl, hd, ho⟩ := regLine_eq_some_iff.mp h
  obtain ⟨rfl, -⟩ := asmLabel_eq_some_iff.mp ho
  exact ⟨d, rfl, hd⟩

theorem label_fits (make : Word → Instr) (addr label : Word) :
    (asmLabel (signedWithin lo hi) addr label).map make = none ↔
      (label - (addr + 1)).toInt < lo ∨ hi < (label - (addr + 1)).toInt := by
  rw [Option.map_eq_none_iff, asmLabel_eq_none_iff]

/-- Settles O14: each line by its shape, and decoding back by the first round-trip law. -/
theorem assemblerRefusesWhatDoesNotFit : Obligations.AssemblerRefusesWhatDoesNotFit := by
  refine ⟨fun _ => regRegReg_fits .addReg, fun _ => regRegNum_fits .addImm (by decide) (by decide),
    fun _ => regRegReg_fits .andReg, fun _ => regRegNum_fits .andImm (by decide) (by decide), fun _ => regReg_fits .not,
    fun _ => reg_fits .jmp, fun _ => reg_fits .jsrr, fun _ => regRegNum_fits .ldr (by decide) (by decide),
    fun _ => regRegNum_fits .str (by decide) (by decide), fun addr label r line make hmem => ?_,
    fun addr label n z p => ⟨label_fits (.br (asmMask n z p)) addr label, label_fits .jsr addr label⟩,
    fun _ _ => assemble_trap_eq_none_iff,
    fun addr line i h => ⟨wf_of_assemble h, decodeOfEncodeIsIdentity i (wf_of_assemble h)⟩⟩
  simp only [List.mem_cons, List.not_mem_nil, or_false, Prod.mk.injEq] at hmem
  obtain ⟨rfl, rfl⟩ | ⟨rfl, rfl⟩ | ⟨rfl, rfl⟩ | ⟨rfl, rfl⟩ | ⟨rfl, rfl⟩ := hmem <;> exact regLabel_fits _ r addr label

theorem eq_sub_iff_add_eq_label {next label o : Word} : o = label - next ↔ next + o = label := by
  bv_omega

/-- A label operand is the offset from the next word that reaches the label (R102). -/
theorem label_map_eq_some_iff {make : Word → Instr} {addr label : Word} {i : Instr} :
    (asmLabel (signedWithin lo hi) addr label).map make = some i ↔
      ∃ o, (addr + 1) + o = label ∧ lo ≤ o.toInt ∧ o.toInt ≤ hi ∧ i = make o := by
  simp only [Option.map_eq_some_iff, asmLabel_eq_some_iff, signedWithin_eq_true_iff, eq_sub_iff_add_eq_label, and_assoc,
    eq_comm (a := i)]

theorem regLine_toNat {α : Type} (make : Reg → α → Instr) (r : Reg) (x : Option α) :
    regLine make r.toNat x = x.map (make r) := by
  rw [regLine, asmReg_eq_some_iff.mpr rfl]
  rfl

/-- Settles O16: each line is its label's offset, mapped; the register of a load or store is accepted. -/
theorem labelsBecomeOffsets : Obligations.LabelsBecomeOffsets := by
  refine fun addr label => ⟨fun n z p i => label_map_eq_some_iff, fun i => label_map_eq_some_iff,
    fun r i line make hmem => ?_⟩
  have hline : assemble addr line = (asmLabel isOffset9 addr label).map make := by
    simp only [List.mem_cons, List.not_mem_nil, or_false, Prod.mk.injEq] at hmem
    obtain ⟨rfl, rfl⟩ | ⟨rfl, rfl⟩ | ⟨rfl, rfl⟩ | ⟨rfl, rfl⟩ | ⟨rfl, rfl⟩ := hmem <;> exact regLine_toNat _ r _
  rw [hline]
  exact label_map_eq_some_iff

/-- Settles O15: the short form and its expansion assemble to the same instruction. -/
theorem aliasesExpand : Obligations.AliasesExpand :=
  fun _ => ⟨⟨rfl, rfl⟩, rfl, rfl, rfl, rfl, rfl, rfl, fun _ => rfl, rfl⟩

/-- Settles O17: the lines are run through the assembler. -/
theorem assemblyTextIsRead : Obligations.AssemblyTextIsRead := by
  rintro _ rfl
  decide

end Sys2Proof.Machine
end

/-! # Proofs of the operate family (spec/40_operate.md) -/

section
/-! ## Instructions that end in one register write

Each operate instruction is one write through setReg, so its result, flag and frame are those of that write. -/

namespace Sys2Proof.Machine

theorem memKept_setReg (s : State) (d : Reg) (v : Word) : MemKept s (s.setReg d v) := fun _ => rfl

theorem outsideKept_setReg (s : State) (d : Reg) (v : Word) : OutsideKept s (s.setReg d v) := ⟨⟨rfl, rfl, rfl⟩, rfl⟩

/-- Of two writes to one register the second stays. -/
@[simp] theorem State.setReg_setReg_same (s : State) (d : Reg) (v w : Word) : (s.setReg d v).setReg d w = s.setReg d w := by
  simp only [State.setReg, Vector.set_set]

/-- An instruction that ends in one register write has the write's result and flag, and changes nothing else. -/
theorem result_of_exec_eq_setReg {i : Instr} {s : State} {d : Reg} {v : Word} (h : exec i s = .next (s.setReg d v)) :
    ∃ t, exec i s = .next t ∧ RegWritten s t d v ∧ t.pc = s.pc ∧ MemKept s t ∧ OutsideKept s t :=
  ⟨_, h, regWritten_setReg s d v, rfl, memKept_setReg s d v, outsideKept_setReg s d v⟩

section
variable (s : State) (dr sr sr1 sr2 : Reg) (imm : Word)

theorem exec_addReg : exec (.addReg dr sr1 sr2) s = .next (s.setReg dr (s.reg sr1 + s.reg sr2)) := rfl

theorem exec_addImm : exec (.addImm dr sr1 imm) s = .next (s.setReg dr (s.reg sr1 + imm)) := rfl

theorem exec_andReg : exec (.andReg dr sr1 sr2) s = .next (s.setReg dr (s.reg sr1 &&& s.reg sr2)) := rfl

theorem exec_andImm : exec (.andImm dr sr1 imm) s = .next (s.setReg dr (s.reg sr1 &&& imm)) := rfl

theorem exec_not : exec (.not dr sr) s = .next (s.setReg dr (~~~(s.reg sr))) := rfl

end

end Sys2Proof.Machine
end

section
/-! ## The results of the operate instructions -/

namespace Sys2Proof.Machine

/-- Adding words is adding their unsigned values modulo 2^16 (R110). -/
theorem ofNat_toNat_add_toNat (a b : Word) : BitVec.ofNat 16 (a.toNat + b.toNat) = a + b := by
  rw [BitVec.ofNat_add, BitVec.ofNat_toNat, BitVec.ofNat_toNat, BitVec.setWidth_eq, BitVec.setWidth_eq]

/-- Adding a sign-extended field is adding its signed value modulo 2^16 (R87, R110). -/
theorem ofInt_toInt_add_toInt {n : Nat} (a : Word) (f : BitVec n) :
    BitVec.ofInt 16 (a.toInt + f.toInt) = a + f.signExtend 16 := by
  rw [BitVec.ofInt_add, BitVec.ofInt_toInt, BitVec.signExtend]

/-- Adding the complement plus one is subtracting (R117). -/
theorem add_not_add_one (a b : Word) : a + (~~~b + 1) = a - b := by
  rw [BitVec.sub_eq_add_neg, BitVec.neg_eq_not_add]
  rfl

/-- Settles O27: the word has the format, and the sum is written. -/
theorem addRegisterResult : Obligations.AddRegisterResult := by
  intro s dr sr1 sr2 x
  rw [ofNat_toNat_add_toNat]
  exact ⟨(Format.addReg dr sr1 sr2 x).decode_eq, result_of_exec_eq_setReg (exec_addReg s dr sr1 sr2)⟩

/-- Settles O28: the word has the format, and the sum with the immediate is written. -/
theorem addImmediateResult : Obligations.AddImmediateResult := by
  intro s dr sr1 imm5
  rw [ofInt_toInt_add_toInt]
  exact ⟨(Format.addImm dr sr1 imm5).decode_eq, result_of_exec_eq_setReg (exec_addImm s dr sr1 _)⟩

/-- Settles O29: the word has the format, and the conjunction is written. -/
theorem andRegisterResult : Obligations.AndRegisterResult :=
  fun s dr sr1 sr2 x => ⟨(Format.andReg dr sr1 sr2 x).decode_eq, result_of_exec_eq_setReg (exec_andReg s dr sr1 sr2)⟩

/-- Settles O30: the word has the format, and the conjunction with the immediate is written. -/
theorem andImmediateResult : Obligations.AndImmediateResult :=
  fun s dr sr1 imm5 => ⟨(Format.andImm dr sr1 imm5).decode_eq, result_of_exec_eq_setReg (exec_andImm s dr sr1 _)⟩

/-- Settles O31: the word has the format, and the complement is written. -/
theorem notResult : Obligations.NotResult :=
  fun s dr sr x => ⟨(Format.not dr sr x).decode_eq, result_of_exec_eq_setReg (exec_not s dr sr)⟩

/-- Settles O32: all three instructions write d, so the last write stays; a is still to be read, since it is not d. -/
theorem subtractIdiom : Obligations.SubtractIdiom := by
  intro s d a b hda
  have hneg : exec (.addImm d d 1) (s.setReg d (~~~(s.reg b))) = .next (s.setReg d (~~~(s.reg b) + 1)) := by
    rw [exec_addImm, State.setReg_reg_same, State.setReg_setReg_same]
  have hsub : exec (.addReg d a d) (s.setReg d (~~~(s.reg b) + 1)) = .next (s.setReg d (s.reg a - s.reg b)) := by
    rw [exec_addReg, State.setReg_reg_other s _ hda.symm, State.setReg_reg_same, State.setReg_setReg_same, add_not_add_one]
  exact ⟨_, _, _, exec_not s d b, hneg, hsub, regWritten_setReg s d _, memKept_setReg s d _, outsideKept_setReg s d _⟩

end Sys2Proof.Machine
end

/-! # Proofs of the control family (spec/41_control.md) -/

section
/-! ## Instructions that end in one write of pc, with or without the link

Branch and Jump write pc alone; the two calls write the link register first. -/

namespace Sys2Proof.Machine

/-- An instruction that ends in one write of pc changes nothing else. -/
theorem result_of_exec_eq_setPc {i : Instr} {s : State} {target : Word} (h : exec i s = .next (s.setPc target)) :
    ∃ t, exec i s = .next t ∧ t.pc = target ∧ RegsKept s t ∧ MemKept s t ∧ OutsideKept s t :=
  ⟨_, h, rfl, ⟨fun _ => rfl, rfl⟩, fun _ => rfl, ⟨rfl, rfl, rfl⟩, rfl⟩

/-- An instruction that ends in a link and a write of pc writes R7 with its flag, and changes nothing else. -/
theorem result_of_exec_eq_link {i : Instr} {s : State} {target : Word}
    (h : exec i s = .next ((s.setReg linkReg s.pc).setPc target)) :
    ∃ t, exec i s = .next t ∧ t.pc = target ∧ RegWritten s t 7 s.pc ∧ MemKept s t ∧ OutsideKept s t :=
  ⟨_, h, rfl, regWritten_setReg s linkReg s.pc, memKept_setReg s linkReg s.pc, outsideKept_setReg s linkReg s.pc⟩

/-- What any register holds after a write to one. -/
theorem State.setReg_reg (s : State) (r q : Reg) (v : Word) : (s.setReg r v).reg q = if q = r then v else s.reg q := by
  split
  next h => rw [h, State.setReg_reg_same]
  next h => exact s.setReg_reg_other v h

section
variable (s : State) (nzp : BitVec 3) (off : Word) (baseR : Reg)

theorem exec_br : exec (.br nzp off) s = .next (s.setPc (if s.cond.selectedBy nzp then s.pc + off else s.pc)) :=
  execBr_eq_setPc nzp off s

theorem exec_jmp : exec (.jmp baseR) s = .next (s.setPc (s.reg baseR)) := rfl

theorem exec_jsr : exec (.jsr off) s = .next ((s.setReg linkReg s.pc).setPc (s.pc + off)) := rfl

/-- The base register is read after the link write (R138). -/
theorem exec_jsrr : exec (.jsrr baseR) s =
    .next ((s.setReg linkReg s.pc).setPc (if baseR = linkReg then s.pc else s.reg baseR)) := by
  rw [← State.setReg_reg]
  rfl

end

/-- The mask selects the held flag by that flag's bit, N first (R28, R132). -/
theorem selectedBy_iff (c : Flag) (nzp : BitVec 3) : c.selectedBy nzp = true ↔
    (c = .n ∧ nzp.getLsbD 2 = true) ∨ (c = .z ∧ nzp.getLsbD 1 = true) ∨ (c = .p ∧ nzp.getLsbD 0 = true) := by
  revert nzp
  cases c <;> decide

/-- A call leaves the word after it in R7 (R136, R138). -/
theorem reg_seven_of_exec_call {i : Instr} {s t : State} (hi : (∃ off, i = .jsr off) ∨ ∃ b, i = .jsrr b)
    (h : exec i s = .next t) : t.reg 7 = s.pc := by
  have hlink : ∃ target, exec i s = .next ((s.setReg linkReg s.pc).setPc target) := by
    obtain ⟨off, rfl⟩ | ⟨b, rfl⟩ := hi
    · exact ⟨_, exec_jsr s off⟩
    · exact ⟨_, exec_jsrr s b⟩
  obtain ⟨target, hx⟩ := hlink
  cases h.symm.trans hx
  exact s.setReg_reg_same linkReg s.pc

end Sys2Proof.Machine
end

section
/-! ## The results of the control instructions -/

namespace Sys2Proof.Machine

/-- Settles O33: the word has the format, and pc is written by the held flag's bit of the mask. -/
theorem branchResult : Obligations.BranchResult := by
  intro s nzp offset9
  simp only [← selectedBy_iff]
  exact ⟨(Format.br nzp offset9).decode_eq, result_of_exec_eq_setPc (exec_br s nzp _)⟩

/-- Settles O35: the word has the format, and pc is written with the base register. -/
theorem jumpResult : Obligations.JumpResult :=
  fun s baseR x y => ⟨(Format.jmp x baseR y).decode_eq, result_of_exec_eq_setPc (exec_jmp s baseR)⟩

/-- Settles O36: the word has the format, and the link is written, then pc with the target. -/
theorem jumpSubRoutineOffsetResult : Obligations.JumpSubRoutineOffsetResult :=
  fun s offset11 => ⟨(Format.jsr offset11).decode_eq, result_of_exec_eq_link (exec_jsr s _)⟩

/-- Settles O37: the word has the format, and the link is written, then pc with the base register as it is then. -/
theorem jumpSubRoutineRegisterResult : Obligations.JumpSubRoutineRegisterResult :=
  fun s baseR x y => ⟨(Format.jsrr x baseR y).decode_eq, result_of_exec_eq_link (exec_jsrr s baseR)⟩

/-- Settles O38: the jump takes pc to R7, where the call left the word after it. -/
theorem returnGoesAfterTheCall : Obligations.ReturnGoesAfterTheCall :=
  fun _ _ u _ hi h hlink => ⟨_, exec_jmp u 7, hlink.trans (reg_seven_of_exec_call hi h)⟩

end Sys2Proof.Machine
end

/-! # Proofs of the load and store family (spec/42_loadstore.md) -/

section
/-! ## Loads as one register write, stores as one memory write

Each load, and LEA, is one write through setReg; each store is the one write that storeOf names. -/

namespace Sys2Proof.Machine

theorem regsKept_writeMem (s : State) (a v : Word) : RegsKept s (s.writeMem a v) := ⟨s.writeMem_reg a v, s.writeMem_cond a v⟩

theorem outsideKept_writeMem (s : State) (a v : Word) : OutsideKept s (s.writeMem a v) :=
  ⟨⟨s.writeMem_running a v, s.writeMem_fault a v, s.writeMem_texts a v⟩, s.writeMem_console a v⟩

/-- An instruction that names a store replaces that one word of a canonical memory, and changes nothing else. -/
theorem result_of_storeOf_eq_some {i : Instr} {s : State} {a v : Word} (hwf : Memory.wf s.mem = true)
    (hs : storeOf s i = some (a, v)) :
    ∃ t, exec i s = .next t ∧ MemStored s t a v ∧ RegsKept s t ∧ t.pc = s.pc ∧ OutsideKept s t :=
  ⟨_, exec_of_storeOf_eq_some hs, memStored_writeMem s a v hwf, regsKept_writeMem s a v, s.writeMem_pc a v,
    outsideKept_writeMem s a v⟩

section
variable (s : State) (dr sr baseR : Reg) (off : Word)

theorem exec_ld : exec (.ld dr off) s = .next (s.setReg dr (s.readMem (s.pc + off))) := rfl

theorem exec_ldi : exec (.ldi dr off) s = .next (s.setReg dr (s.readMem (s.readMem (s.pc + off)))) := rfl

theorem exec_ldr : exec (.ldr dr baseR off) s = .next (s.setReg dr (s.readMem (s.reg baseR + off))) := rfl

theorem exec_lea : exec (.lea dr off) s = .next (s.setReg dr (s.pc + off)) := rfl

theorem storeOf_st : storeOf s (.st sr off) = some (s.pc + off, s.reg sr) := rfl

theorem storeOf_sti : storeOf s (.sti sr off) = some (s.readMem (s.pc + off), s.reg sr) := rfl

theorem storeOf_str : storeOf s (.str sr baseR off) = some (s.reg baseR + off, s.reg sr) := rfl

end

end Sys2Proof.Machine
end

section
/-! ## The results of the loads and stores -/

namespace Sys2Proof.Machine

/-- Settles O39: the word has the format, and the word at the pc-relative address is written. -/
theorem loadResult : Obligations.LoadResult :=
  fun s dr offset9 => ⟨(Format.ld dr offset9).decode_eq, result_of_exec_eq_setReg (exec_ld s dr _)⟩

/-- Settles O40: the word has the format, and the word that the pointer leads to is written. -/
theorem loadIndirectResult : Obligations.LoadIndirectResult :=
  fun s dr offset9 => ⟨(Format.ldi dr offset9).decode_eq, result_of_exec_eq_setReg (exec_ldi s dr _)⟩

/-- Settles O41: the word has the format, and the word at the base's offset is written, the base read before the write. -/
theorem loadBaseOffsetResult : Obligations.LoadBaseOffsetResult :=
  fun s dr baseR offset6 => ⟨(Format.ldr dr baseR offset6).decode_eq, result_of_exec_eq_setReg (exec_ldr s dr baseR _)⟩

/-- Settles O42: the word has the format, and the pc-relative address itself is written. -/
theorem loadEffectiveAddressResult : Obligations.LoadEffectiveAddressResult :=
  fun s dr offset9 => ⟨(Format.lea dr offset9).decode_eq, result_of_exec_eq_setReg (exec_lea s dr _)⟩

/-- Settles O43: the word has the format, and the store named is at the pc-relative address. -/
theorem storeResult : Obligations.StoreResult :=
  fun s sr offset9 hwf => ⟨(Format.st sr offset9).decode_eq, result_of_storeOf_eq_some hwf (storeOf_st s sr _)⟩

/-- Settles O44: the word has the format, and the store named is at the pointer, read before the store. -/
theorem storeIndirectResult : Obligations.StoreIndirectResult :=
  fun s sr offset9 hwf => ⟨(Format.sti sr offset9).decode_eq, result_of_storeOf_eq_some hwf (storeOf_sti s sr _)⟩

/-- Settles O45: the word has the format, and the store named is at the base's offset. -/
theorem storeBaseOffsetResult : Obligations.StoreBaseOffsetResult :=
  fun s sr baseR offset6 hwf =>
    ⟨(Format.str sr baseR offset6).decode_eq, result_of_storeOf_eq_some hwf (storeOf_str s sr baseR _)⟩

end Sys2Proof.Machine
end

/-! # Proofs of the trap's family (spec/43_trap.md) -/

section
/-! ## Traps that end where their console operations do

A Trap that is a list of console operations completes them all, or is ended by the fault at the first that fails (R180). The
other fields are those of the state before it. -/

namespace Sys2Proof.Machine

variable {i : Instr} {s : State} {c : Console} {es : List ConsoleEvent}

/-- A Trap word decodes by its low byte, whatever its ignored bits hold (R85, R86). -/
theorem decode_trap {v : Byte} (hv : decodeTrap v = .ok i) (x : BitVec 4) : decode (0b1111#4 ++ x ++ v) = .ok i :=
  (Format.trap x v i hv).decode_eq

/-- A Trap ended by a failing operation has recorded IoFailure after the operations before it, and changed nothing else. -/
theorem result_with_texts_of_exec_eq_failed (h : exec i s = .next ((s.withConsole c).raise .ioFailure))
    (hev : c.events = s.console.events ++ es) :
    ∃ t, exec i s = .next t ∧ IoFailureRecorded s t ∧ RegsKept s t ∧ t.pc = s.pc ∧ MemKept s t ∧ t.running = s.running ∧
      t.texts = s.texts ∧ EventsAdded s t es :=
  ⟨_, h, rfl, ⟨fun _ => rfl, rfl⟩, rfl, fun _ => rfl, rfl, rfl, hev⟩

/-- The same without the texts, as most statements have it. -/
theorem result_of_exec_eq_failed (h : exec i s = .next ((s.withConsole c).raise .ioFailure))
    (hev : c.events = s.console.events ++ es) :
    ∃ t, exec i s = .next t ∧ IoFailureRecorded s t ∧ RegsKept s t ∧ t.pc = s.pc ∧ MemKept s t ∧ t.running = s.running ∧
      EventsAdded s t es := by
  obtain ⟨t, ht, hio, hregs, hpc, hmem, hrun, -, hadd⟩ := result_with_texts_of_exec_eq_failed h hev
  exact ⟨t, ht, hio, hregs, hpc, hmem, hrun, hadd⟩

/-- A Trap that is a list of operations, all answered done, completes them and changes nothing else. -/
theorem result_of_requests_done (h : exec i s = .next (settle (requests es s))) (hd : s.console.acksDone es.length) :
    ∃ t, exec i s = .next t ∧ RegsKept s t ∧ t.pc = s.pc ∧ MemKept s t ∧ StatusKept s t ∧ EventsAdded s t es := by
  obtain ⟨c, hr, hev, -⟩ := requests_done es s hd
  rw [hr] at h
  exact ⟨_, h, ⟨fun _ => rfl, rfl⟩, rfl, fun _ => rfl, ⟨rfl, rfl, rfl⟩, hev⟩

/-- A Trap that is a list of operations ends by the fault at the first that fails. -/
theorem result_of_requests_failed {k : Nat} (h : exec i s = .next (settle (requests es s))) (hk : k < es.length)
    (hf : s.console.failsAt k) :
    ∃ t, exec i s = .next t ∧ IoFailureRecorded s t ∧ RegsKept s t ∧ t.pc = s.pc ∧ MemKept s t ∧ t.running = s.running ∧
      EventsAdded s t (es.take k) := by
  obtain ⟨c, hr, hev⟩ := requests_failed es s k hk hf
  rw [hr] at h
  exact result_of_exec_eq_failed h hev

@[simp] theorem writesOf_length (bytes : List Byte) : (writesOf bytes).length = bytes.length := List.length_map _

/-- The low byte of a word, as a number (R10). -/
theorem lo8_eq_ofNat (w : Word) : lo8 w = BitVec.ofNat 8 (w.toNat % 256) := by
  apply BitVec.eq_of_toNat_eq
  rw [lo8, field_toNat, BitVec.toNat_ofNat]
  omega

/-- Out is its two operations (R184). -/
theorem exec_out (s : State) :
    exec .trapOut s = .next (settle (requests [.write (BitVec.ofNat 8 ((s.reg 0).toNat % 256)), .flush] s)) := by
  rw [← lo8_eq_ofNat]
  rfl

/-- Halt with its operations done clears running (R190). -/
theorem exec_halt_of_done (hr : requests (writesOf s.texts.haltNotice ++ [.terminate]) s = .ok (s.withConsole c)) :
    exec .trapHalt s = .next { s.withConsole c with running := false } := by
  show execTrapHalt s = _
  rw [execTrapHalt, hr]
  rfl

/-- Halt ends where one of its operations fails. -/
theorem exec_halt_of_failed {t : State} (hr : requests (writesOf s.texts.haltNotice ++ [.terminate]) s = .error t) :
    exec .trapHalt s = .next t := by
  show execTrapHalt s = _
  rw [execTrapHalt, hr]
  rfl

end Sys2Proof.Machine
end

section
/-! ## The reads of GetC and In -/

namespace Sys2Proof.Machine

variable {i : Instr} {s : State} {c : Console} {b : Byte} {es : List ConsoleEvent}

/-- A zero-extended byte is never negative. -/
theorem flagOf_zext16_ne_n (b : Byte) : flagOf (zext16 b) ≠ .n := by
  have hbit : (zext16 b).getLsbD 15 = false := by
    rw [zext16, BitVec.getLsbD_setWidth, BitVec.getLsbD_of_ge b 15 (by decide)]
    rfl
  rw [flagOf, hbit]
  split <;> decide

/-- A Trap that completes a read has the byte in R0, zero-extended, with a flag that is not N, and changes nothing else. -/
theorem result_of_exec_eq_read (h : exec i s = .next ((s.withConsole c).setReg 0 (zext16 b)))
    (hev : c.events = s.console.events ++ es) :
    ∃ t, exec i s = .next t ∧ RegWritten s t 0 (b.setWidth 16) ∧ t.cond ≠ .n ∧ t.pc = s.pc ∧ MemKept s t ∧ StatusKept s t ∧
      t.console = c ∧ EventsAdded s t es :=
  ⟨_, h, regWritten_setReg (s.withConsole c) 0 (zext16 b), flagOf_zext16_ne_n b, rfl, fun _ => rfl, ⟨rfl, rfl, rfl⟩, rfl, hev⟩

/-- GetC is the taking of the console's answer (R182). -/
theorem exec_getc_of_nextRead {a : ReadAnswer} (ha : s.console.nextRead = some a) :
    exec .trapGetc s = .next (settle (takeRead a s)) := by
  show execTrapGetc s = _
  rw [execTrapGetc, ha]

/-- GetC holds where no answer comes (R252). -/
theorem exec_getc_of_no_answer (ha : s.console.nextRead = none) : exec .trapGetc s = .fault .consoleHold := by
  show execTrapGetc s = _
  rw [execTrapGetc, ha]

/-- With its writes answered done, In's prompt is out, and the next read and flush meet the answers after it (R183). -/
theorem prompt_done (hd : s.console.acksDone s.texts.inPrompt.length) :
    ∃ c, requests (writesOf s.texts.inPrompt) s = .ok (s.withConsole c) ∧
      c.events = s.console.events ++ writesOf s.texts.inPrompt ∧ c.nextAck = s.console.ackAt s.texts.inPrompt.length := by
  obtain ⟨c, hp, hev, -, hack⟩ := requests_done (writesOf s.texts.inPrompt) s (by rwa [writesOf_length])
  rw [writesOf_length] at hack
  exact ⟨c, hp, hev, hack 0⟩

/-- In, once its prompt is out, is the taking of the console's answer and a flush (R183). -/
theorem exec_in_of_nextRead {a : ReadAnswer} (hp : requests (writesOf s.texts.inPrompt) s = .ok (s.withConsole c))
    (ha : s.console.nextRead = some a) :
    exec .trapIn s = .next (settle ((takeRead a (s.withConsole c)).bind (request .flush))) := by
  show execTrapIn s = _
  rw [execTrapIn, hp, ha]
  rfl

/-- In, once its prompt is out, holds where no answer comes (R252). -/
theorem exec_in_of_no_answer (hp : requests (writesOf s.texts.inPrompt) s = .ok (s.withConsole c))
    (ha : s.console.nextRead = none) : exec .trapIn s = .fault .consoleHold := by
  show execTrapIn s = _
  rw [execTrapIn, hp, ha]

/-- In ends where its prompt does, if a write of it fails, whatever the read's answer would be. -/
theorem exec_in_of_prompt_failed {t : State} (hp : requests (writesOf s.texts.inPrompt) s = .error t) :
    exec .trapIn s = .next t := by
  show execTrapIn s = _
  rw [execTrapIn, hp]
  cases s.console.nextRead <;> rfl

/-- With the prompt out and a byte read into R0, the flush is left. -/
theorem exec_in_of_byte (hp : requests (writesOf s.texts.inPrompt) s = .ok (s.withConsole c))
    (ha : s.console.nextRead = some (.byte b)) : exec .trapIn s =
      .next (settle (request .flush ((s.withConsole (c.popRead.log (.read b))).setReg 0 (zext16 b)))) :=
  exec_in_of_nextRead hp ha

/-- With the prompt out and a byte read, In completes if the answer to the flush is done. -/
theorem exec_in_flush_done (hp : requests (writesOf s.texts.inPrompt) s = .ok (s.withConsole c))
    (ha : s.console.nextRead = some (.byte b)) (hf : c.nextAck = .done) :
    exec .trapIn s = .next ((s.withConsole ((c.popRead.log (.read b)).popAck.log .flush)).setReg 0 (zext16 b)) := by
  rw [exec_in_of_byte hp ha, request_done _ _ (c.popRead_nextAck.trans hf)]
  rfl

/-- With the prompt out and a byte read, In ends by the fault, with the byte in R0, if the answer to the flush is failure. -/
theorem exec_in_flush_failed (hp : requests (writesOf s.texts.inPrompt) s = .ok (s.withConsole c))
    (ha : s.console.nextRead = some (.byte b)) (hf : c.nextAck = .failure) :
    exec .trapIn s =
      .next (((s.withConsole (c.popRead.log (.read b)).popAck).setReg 0 (zext16 b)).raise .ioFailure) := by
  rw [exec_in_of_byte hp ha, request_failure _ _ (c.popRead_nextAck.trans hf)]
  rfl

end Sys2Proof.Machine
end

section
/-! ## The strings of Puts and PutsP -/

namespace Sys2Proof.Machine

variable {s t : State} {f : Word → List Byte}

/-- The writes of the first n words from x[0] on, by what is written for one word (R186, R188). -/
def firstWrites (f : Word → List Byte) (s : State) (n : Nat) : List ConsoleEvent :=
  ((List.range n).map fun k => writesOf (f (s.readMem (s.reg 0 + BitVec.ofNat 16 k)))).flatten

/-- The bytes of the first n words, as writes, are firstWrites. -/
theorem writesOf_flatMap_range (f : Word → List Byte) (s : State) (n : Nat) :
    writesOf (((List.range n).map fun k => Memory.read s.mem (s.reg 0 + BitVec.ofNat 16 k).toNat).flatMap f) =
      firstWrites f s n := by
  rw [writesOf, List.map_flatMap, List.flatMap_def, List.map_map]
  rfl

theorem firstWrites_succ (f : Word → List Byte) (s : State) (n : Nat) :
    firstWrites f s (n + 1) = firstWrites f s n ++ writesOf (f (s.readMem (s.reg 0 + BitVec.ofNat 16 n))) := by
  rw [firstWrites, List.range_succ, List.map_append, List.flatten_append]
  simp [firstWrites]

/-- The writes of Puts are one low byte a word (R186). -/
theorem firstWrites_puts (s : State) (n : Nat) : firstWrites putsBytes s n =
    (List.range n).map fun k => ConsoleEvent.write ((s.readMem (s.reg 0 + BitVec.ofNat 16 k)).extractLsb' 0 8) := by
  rw [firstWrites, ← List.flatMap_def]
  exact List.map_eq_flatMap.symm

/-- The high byte is the word without its low byte (R10). -/
theorem hi8_eq_zero_iff (w : Word) : hi8 w = 0 ↔ w.toNat / 256 = 0 := by
  have hw := w.isLt
  rw [← BitVec.toNat_inj, hi8, field_toNat]
  change w.toNat / 2 ^ 8 % 2 ^ 8 = 0 ↔ _
  omega

/-- PutsP writes the low byte of a word and then its high byte, unless that is zero (R188). -/
theorem writesOf_putspBytes (w : Word) : writesOf (putspBytes w) =
    if w.toNat / 256 = 0 then [ConsoleEvent.write (w.extractLsb' 0 8)]
    else [ConsoleEvent.write (w.extractLsb' 0 8), ConsoleEvent.write (w.extractLsb' 8 8)] := by
  simp only [putspBytes, hi8_eq_zero_iff]
  split <;> rfl

theorem firstWrites_putsp (s : State) (n : Nat) : firstWrites putspBytes s n =
    ((List.range n).map fun k =>
      if (s.readMem (s.reg 0 + BitVec.ofNat 16 k)).toNat / 256 = 0
      then [ConsoleEvent.write ((s.readMem (s.reg 0 + BitVec.ofNat 16 k)).extractLsb' 0 8)]
      else [ConsoleEvent.write ((s.readMem (s.reg 0 + BitVec.ofNat 16 k)).extractLsb' 0 8),
        ConsoleEvent.write ((s.readMem (s.reg 0 + BitVec.ofNat 16 k)).extractLsb' 8 8)]).flatten := by
  simp only [firstWrites, writesOf_putspBytes]

/-- A string trap at a string of n words is their writes and a flush. -/
theorem printString_terminated {n : Nat} (hn : n < memoryWords)
    (hnz : ∀ k, k < n → s.readMem (s.reg 0 + BitVec.ofNat 16 k) ≠ 0)
    (hz : s.readMem (s.reg 0 + BitVec.ofNat 16 n) = 0) :
    printString f s = .next (settle (requests (firstWrites f s n ++ [.flush]) s)) := by
  have hwords := stringWords_terminated s.mem n memoryWords (s.reg 0) hn hnz hz
  rw [printString, stringWrites, hwords, writesOf_flatMap_range, List.length_map, List.length_range, if_pos hn]

/-- Where no word is zero, a read of n words gets the first n, addresses modulo 2^16. -/
theorem stringWords_of_no_zero (m : Memory) (n : Nat) (a : Word) (h : ∀ b : Word, Memory.read m b.toNat ≠ 0) :
    stringWords m n a = (List.range n).map fun k => Memory.read m (a + BitVec.ofNat 16 k).toNat := by
  induction n generalizing a with
  | zero => rfl
  | succ n ih =>
    have hnext : ∀ k, a + 1 + BitVec.ofNat 16 k = a + BitVec.ofNat 16 (k + 1) := fun k => by
      rw [BitVec.ofNat_add, BitVec.add_assoc, BitVec.add_comm 1]
      rfl
    rw [stringWords, if_neg (h a), ih, List.range_succ_eq_map, List.map_cons, List.map_map]
    simp only [Function.comp_def, Nat.succ_eq_add_one, hnext, BitVec.add_zero]

section
variable (hnz : ∀ a, s.readMem a ≠ 0)
include hnz

theorem stringWrites_of_no_zero (f : Word → List Byte) (n : Nat) : stringWrites f n s = firstWrites f s n := by
  rw [stringWrites, stringWords_of_no_zero s.mem n (s.reg 0) hnz, writesOf_flatMap_range]

/-- The first n words give at least n writes, so that the first n writes come from them alone. -/
theorem take_firstWrites_succ (hf : ∀ w, 0 < (f w).length) (n : Nat) :
    (firstWrites f s (n + 1)).take n = (firstWrites f s n).take n := by
  have hlen := stringWrites_length_ge f hf n s hnz
  rw [stringWrites_of_no_zero hnz] at hlen
  rw [firstWrites_succ, List.take_append_of_le_length hlen]

/-- A string trap with no zero word in memory ends at the first write that fails, after exactly those before it. -/
theorem result_of_printString_endless {i : Instr} {k : Nat} (h : exec i s = printString f s)
    (hf : ∀ w, 0 < (f w).length) (hk : s.console.failsAt k) :
    ∃ t, exec i s = .next t ∧ IoFailureRecorded s t ∧ RegsKept s t ∧ t.pc = s.pc ∧ MemKept s t ∧ t.running = s.running ∧
      t.texts = s.texts ∧ EventsAdded s t ((firstWrites f s k).take k) := by
  obtain ⟨c, hp, hev⟩ := printString_endless_fails f hf s k hnz hk
  rw [stringWrites_of_no_zero hnz, take_firstWrites_succ hnz hf] at hev
  exact result_with_texts_of_exec_eq_failed (h.trans hp) hev

/-- A string trap with no zero word in memory has no next state but one with IoFailure recorded. -/
theorem ioFailureRecorded_of_printString_endless (hf : ∀ w, 0 < (f w).length) (h : printString f s = .next t) :
    IoFailureRecorded s t := by
  obtain ⟨hsome, hnone⟩ := s.console.firstFailure_spec
  cases hff : s.console.firstFailure with
  | none =>
    rw [printString_endless_never f s hnz (hnone hff)] at h
    cases h
  | some k =>
    obtain ⟨c, hp, -⟩ := printString_endless_fails f hf s k hnz (hsome k hff)
    rw [hp] at h
    cases h
    rfl

end

end Sys2Proof.Machine
end

section
/-! ## Halt and the run loop, and what every Trap keeps -/

namespace Sys2Proof.Machine

variable {i : Instr} {s t : State}

/-- The run loop takes no turn in a state that is not running or is faulted (R245). -/
theorem runLoop_of_not_looping (h : s.looping = false) (k : Nat) : runLoop k s = .next s := by
  cases k with
  | zero => rfl
  | succ k =>
    rw [runLoop, h]
    rfl

/-- A turn of the run loop is a step (R245). -/
theorem runLoop_succ (hl : s.looping = true) (h : step s = .next t) (k : Nat) : runLoop (k + 1) s = runLoop k t := by
  rw [runLoop, if_pos hl, h]

/-- START sets running in a state with no fault (R244). -/
theorem State.start_of_noFault (h : s.fault = none) : s.start = { s with running := true } := by
  rw [State.start, h]
  rfl

/-- A Halt that ends without a fault has cleared running (R190). -/
theorem TrapEnd.running_of_halt (h : TrapEnd s .trapHalt t) (hf : t.fault = none) : t.running = false := by
  cases h with
  | halted => rfl
  | failed => cases hf
  | consoleOnly c hi => exact absurd rfl hi.2.2
  | read c b hi => obtain hi | hi := hi <;> cases hi

/-- The register a Trap writes, where it writes one, is R0, and GetC and In are the Traps that write it (R181). -/
theorem destReg_of_isTrap {d : Reg} (hi : i.isTrap = true) (hd : destReg i = some d) :
    d = 0 ∧ (i = .trapGetc ∨ i = .trapIn) := by
  cases i <;> cases hd
  case trapGetc => exact ⟨rfl, .inl rfl⟩
  case trapIn => exact ⟨rfl, .inr rfl⟩
  all_goals cases hi

theorem TrapEnd.texts (h : TrapEnd s i t) : t.texts = s.texts := by cases h <;> rfl

end Sys2Proof.Machine
end

section
/-! ## What the Traps do -/

namespace Sys2Proof.Machine

/-- Settles O47: GetC is the taking of the one answer, and with none it holds. -/
theorem getCReadsOneByte : Obligations.GetCReadsOneByte := by
  refine fun s => ⟨decode_trap rfl, fun b ha => ?_, fun ha => ?_, exec_getc_of_no_answer⟩
  · exact result_of_exec_eq_read (exec_getc_of_nextRead ha) (by simp)
  · exact result_with_texts_of_exec_eq_failed (exec_getc_of_nextRead ha) (by simp)

/-- Settles O48: each clause is one end of the chain prompt, read, flush. -/
theorem inPromptsReadsAndFlushes : Obligations.InPromptsReadsAndFlushes := by
  intro s
  refine ⟨decode_trap rfl, fun b ha hd => ?_, fun k hk hf => ?_, fun ha hd => ?_, fun b ha hf => ?_, fun ha hd => ?_⟩
  · obtain ⟨c, hp, hev, hack⟩ := prompt_done fun k hk => hd k (Nat.lt_succ_of_lt hk)
    have hflush : c.nextAck = .done := hack.trans (hd _ (Nat.lt_succ_self _))
    obtain ⟨t, ht, hreg, hcond, hpc, hmem, hstatus, -, hadd⟩ := result_of_exec_eq_read
      (es := s.texts.inPrompt.map .write ++ [.read b, .flush]) (exec_in_flush_done hp ha hflush) (by simp [hev, writesOf])
    exact ⟨t, ht, hreg, hcond, hpc, hmem, hstatus, hadd⟩
  · obtain ⟨c, hp, hev⟩ := requests_failed (writesOf s.texts.inPrompt) s k (by rwa [writesOf_length]) hf
    exact result_of_exec_eq_failed (exec_in_of_prompt_failed hp) hev
  · obtain ⟨c, hp, hev, -⟩ := prompt_done hd
    exact result_of_exec_eq_failed (c := c.popRead) (exec_in_of_nextRead hp ha) (c.popRead_events.trans hev)
  · obtain ⟨c, hp, hev, hack⟩ := prompt_done hf.1
    exact ⟨_, exec_in_flush_failed hp ha (hack.trans hf.2), rfl, regWritten_setReg (s.withConsole _) 0 (zext16 b), rfl,
      fun _ => rfl, rfl, by simp [EventsAdded, hev, writesOf]⟩
  · obtain ⟨c, hp, -⟩ := prompt_done hd
    exact exec_in_of_no_answer hp ha

/-- Settles O49: Out is a list of two operations. -/
theorem outWritesTheLowByte : Obligations.OutWritesTheLowByte :=
  fun s => ⟨decode_trap rfl, result_of_requests_done (exec_out s), fun _ => result_of_requests_failed (exec_out s)⟩

/-- Settles O50: at a terminated string Puts is the writes of its low bytes and a flush. -/
theorem putsWritesLowBytesToTheZeroWord : Obligations.PutsWritesLowBytesToTheZeroWord := by
  refine ⟨decode_trap rfl, fun s n hn hnz hz => ?_,
    fun s t hnz h => ioFailureRecorded_of_printString_endless hnz putsBytes_pos h⟩
  have hexec : exec .trapPuts s = _ := printString_terminated (f := putsBytes) hn hnz hz
  have hlen : (firstWrites putsBytes s n).length = n := by rw [firstWrites_puts, List.length_map, List.length_range]
  refine ⟨fun hd => ?_, fun j hj hf => ?_⟩
  · rw [← firstWrites_puts]
    exact result_of_requests_done hexec (by rwa [List.length_append, hlen])
  · have htake : (firstWrites putsBytes s n ++ [ConsoleEvent.flush]).take j = firstWrites putsBytes s j := by
      rw [List.take_append_of_le_length (by rw [hlen]; exact hj), firstWrites_puts, firstWrites_puts, ← List.map_take,
        List.take_range, Nat.min_eq_left hj]
    rw [← firstWrites_puts, ← htake]
    exact result_of_requests_failed hexec (by rw [List.length_append, hlen]; exact Nat.lt_succ_of_le hj) hf

/-- Settles O51: at a terminated string PutsP is the writes of its packed bytes and a flush. -/
theorem putsPWritesPackedBytes : Obligations.PutsPWritesPackedBytes := by
  refine ⟨decode_trap rfl, fun s n es hn hnz hz hes => ?_,
    fun s t hnz h => ioFailureRecorded_of_printString_endless hnz putspBytes_pos h⟩
  have hexec : exec .trapPutsp s = .next (settle (requests es s)) := by
    rw [hes, ← firstWrites_putsp]
    exact printString_terminated hn hnz hz
  exact ⟨result_of_requests_done hexec, fun _ => result_of_requests_failed hexec⟩

/-- Settles O52: both string traps are printString, which ends at the first failing write or never. -/
theorem stringWithoutZeroWordNeverCompletes : Obligations.StringWithoutZeroWordNeverCompletes := by
  refine fun s hnz => ⟨fun hd => ⟨printString_endless_never _ s hnz hd, printString_endless_never _ s hnz hd⟩,
    fun k hk => ⟨?_, ?_⟩⟩
  · have hputs := result_of_printString_endless (i := .trapPuts) hnz rfl putsBytes_pos hk
    rwa [firstWrites_puts, List.take_of_length_le (by simp)] at hputs
  · rw [← firstWrites_putsp]
    exact result_of_printString_endless hnz rfl putspBytes_pos hk

/-- Settles O53: running is cleared only once the notice and the signal are out. -/
theorem haltClearsRunning : Obligations.HaltClearsRunning := by
  intro s
  have hlen : (writesOf s.texts.haltNotice ++ [ConsoleEvent.terminate]).length = s.texts.haltNotice.length + 1 := by
    rw [List.length_append, writesOf_length, List.length_singleton]
  refine ⟨decode_trap rfl, fun hd => ?_, fun k hk hf => ?_⟩
  · obtain ⟨c, hr, hev, -⟩ := requests_done _ s (hlen.symm ▸ hd)
    exact ⟨_, exec_halt_of_done hr, rfl, ⟨fun _ => rfl, rfl⟩, rfl, fun _ => rfl, rfl, rfl, hev⟩
  · obtain ⟨c, hr, hev⟩ := requests_failed _ s k (hlen.symm ▸ hk) hf
    rw [List.take_append_of_le_length (by rw [writesOf_length]; omega)] at hev
    obtain ⟨t, ht, hio, hregs, hpc, hmem, hrun, hadd⟩ := result_of_exec_eq_failed (exec_halt_of_failed hr) hev
    exact ⟨t, ht, hio, hrun, hregs, hpc, hmem, hadd⟩

/-- Settles O54: the Halt's end clears running, which ends the loop; and no other step clears it. -/
theorem haltStopsTheRunLoop : Obligations.HaltStopsTheRunLoop := by
  refine ⟨fun s t hr hf hd h htf => ?_, fun s t hr h hrt => ?_⟩
  · have hend : TrapEnd s.advance .trapHalt t :=
      trapEnd_of_exec .trapHalt s.advance t rfl ((step_of_decode_ok hf hd).symm.trans h)
    have hstopped : t.running = false := hend.running_of_halt htf
    refine ⟨hstopped, hend.pc, fun k => ?_, fun k => ?_⟩
    · rw [runLoop_succ (by simp [State.looping, hr, hf]) h, runLoop_of_not_looping (by simp [State.looping, hstopped])]
    · rw [hostStart, State.start_of_noFault htf]
  · obtain hkept | ⟨hd, -⟩ := step_running h
    · rw [hkept, hr] at hrt
      cases hrt
    · exact hd

/-- Settles O55: a Trap keeps the registers, or is GetC or In and has written R0 with its flag. -/
theorem trapsAreNoControlTransfer : Obligations.TrapsAreNoControlTransfer := by
  intro i s t hi h
  have hend := trapEnd_of_exec i s t hi h
  have hmem : MemKept s t := memKept_of_mem_eq hend.mem
  obtain hkept | ⟨d, hd, hreg, hother, hflag⟩ := hend.registers
  · exact ⟨hend.pc, fun r _ => hkept.1 r, hmem, hend.texts, fun _ _ => hkept, fun hne => absurd hkept.2 hne⟩
  · obtain ⟨rfl, hread⟩ := destReg_of_isTrap hi hd
    exact ⟨hend.pc, hother, hmem, hend.texts, fun hg hn => absurd hread (not_or.mpr ⟨hg, hn⟩), fun _ => hflag⟩

end Sys2Proof.Machine
end

/-! # Proofs of the exceptions' family (spec/60_exceptions.md) -/

section
/-! ## What a step records as a fault

A step's fault record is the fetched word, its address and a cause that the word can have; and a word has at most one cause. -/

namespace Sys2Proof.Machine

variable {s t : State} {w : Word} {c d : FaultCause} {r : FaultRecord}

/-- The only cause of a word that decodes is IoFailure (R210). -/
theorem eq_ioFailure_of_causeFits {i : Instr} (h : decode w = .ok i) (hc : causeFits w c) : c = .ioFailure := by
  cases c with
  | ioFailure => rfl
  | unrecognizedOpcode | unrecognizedTrapCode => cases h.symm.trans hc

/-- The only cause of a rejected word is the decoder's (R211). -/
theorem eq_causeOf_of_causeFits {f : DecodeFault} (h : decode w = .error f) (hc : causeFits w c) : c = causeOf f := by
  cases c with
  | unrecognizedOpcode | unrecognizedTrapCode =>
    cases h.symm.trans hc
    rfl
  | ioFailure =>
    obtain ⟨i, hi, -⟩ := hc
    cases h.symm.trans hi

/-- A word can fault with one cause at most, since decode gives one answer (R89, R210). -/
theorem causeFits_unique (hc : causeFits w c) (hd : causeFits w d) : c = d := by
  cases h : decode w with
  | ok i => rw [eq_ioFailure_of_causeFits h hc, eq_ioFailure_of_causeFits h hd]
  | error f => rw [eq_causeOf_of_causeFits h hc, eq_causeOf_of_causeFits h hd]

theorem causeFits_unrecognizedOpcode_iff : causeFits w .unrecognizedOpcode ↔
    (w.extractLsb' 12 4).toNat = 8 ∨ (w.extractLsb' 12 4).toNat = 13 :=
  (rejectedWordsFault.1 w).trans (or_congr BitVec.toNat_eq BitVec.toNat_eq)

theorem causeFits_unrecognizedTrapCode_iff : causeFits w .unrecognizedTrapCode ↔ (w.extractLsb' 12 4).toNat = 15 ∧
    ((w.extractLsb' 0 8).toNat < 0x20 ∨ 0x25 < (w.extractLsb' 0 8).toNat) :=
  (rejectedWordsFault.2.1 w).trans (and_congr BitVec.toNat_eq (trapCode_iff _).symm)

theorem causeFits_ioFailure_iff : causeFits w .ioFailure ↔ ∃ i, i.isTrap = true ∧ decode w = .ok i :=
  exists_congr fun _ => and_comm

/-- The record of a step that faults: the fetched word, its address, and a cause the word can have (R210, R212). -/
theorem record_of_step (h : step s = .next t) (hr : t.fault = some r) :
    r.word = s.fetchWord ∧ r.address = s.pc ∧ causeFits s.fetchWord r.cause := by
  obtain ⟨hf, ⟨i, hd, hx⟩ | ⟨c, hd, rfl⟩⟩ := step_cases h
  · obtain hkept | ⟨hi, hio, -, -⟩ := exec_fault hx
    · rw [hkept, State.advance_fault, hf] at hr
      cases hr
    · have haddr : s.advance.pc - 1 = s.pc := s.advance_currentAddress
      rw [IoFailureRecorded, haddr] at hio
      obtain rfl := Option.some.inj (hio.symm.trans hr)
      exact ⟨rfl, rfl, i, hd, hi⟩
  · obtain rfl := Option.some.inj (s.takeDecodeFault_fault c ▸ hr)
    exact ⟨rfl, rfl, causeFits_causeOf hd⟩

/-- A core in the faulted state answers its record (R212). -/
theorem step_of_fault (h : s.fault = some r) : step s = .fault (.coreFaulted r) := by
  rw [step, h]

/-- STEP on a faulted core does nothing (R246). -/
theorem hostStep_of_fault (h : s.fault = some r) : hostStep s = .next s := by
  rw [hostStep, h]
  rfl

/-- START on a faulted core does not set running (R244). -/
theorem State.start_of_fault (h : s.fault = some r) : s.start = s := by
  rw [State.start, h]
  rfl

theorem State.looping_of_fault (h : s.fault = some r) : s.looping = false := by
  simp [State.looping, h]

end Sys2Proof.Machine
end

section
/-! ## Faults and the faulted core -/

namespace Sys2Proof.Machine

/-- Settles O21: the recorded cause is one the fetched word can have, so it is each cause that the word can have. -/
theorem faultCausesAreExact : Obligations.FaultCausesAreExact := by
  refine ⟨fun s t r _ h hr => ?_, rfl, rfl, rfl⟩
  obtain ⟨hword, haddr, hfits⟩ := record_of_step h hr
  rw [← hword] at hfits
  have hcause (c : FaultCause) : r.cause = c ↔ causeFits r.word c :=
    ⟨fun hc => hc ▸ hfits, causeFits_unique hfits⟩
  exact ⟨hword, haddr, (hcause _).trans causeFits_unrecognizedOpcode_iff,
    (hcause _).trans causeFits_unrecognizedTrapCode_iff, (hcause _).trans causeFits_ioFailure_iff⟩

/-- Settles O19: the step is takeDecodeFault, which writes pc and fault only. -/
theorem decodeFaultChangesNothingElse : Obligations.DecodeFaultChangesNothingElse :=
  fun s c hf hd => ⟨s.takeDecodeFault c, step_of_decode_error hf hd, s.takeDecodeFault_fault c, rfl, ⟨fun _ => rfl, rfl⟩,
    fun _ => rfl, rfl, rfl, rfl⟩

/-- Settles O20: step, STEP and the run loop all look at the fault status first. -/
theorem faultedCoreTakesNoStep : Obligations.FaultedCoreTakesNoStep := by
  refine fun s r hf => ⟨step_of_fault hf, hostStep_of_fault hf, fun k => ?_⟩
  rw [hostStart, State.start_of_fault hf]
  exact runLoop_of_not_looping (State.looping_of_fault hf) k

end Sys2Proof.Machine
end

/-! # Proofs of the family of reset and hazards (spec/70_reset_and_hazards.md) -/

section
/-! ## The state of a decode fault -/

namespace Sys2Proof.Machine

/-- The state of a decode fault, field by field: pc incremented and the record written, the rest as it was (R211, R247). -/
theorem State.takeDecodeFault_eq (s : State) (c : DecodeFault) : s.takeDecodeFault c =
    { s with pc := s.pc + 1, fault := some { cause := causeOf c, word := s.readMem s.pc, address := s.pc } } := by
  rw [takeDecodeFault, raise, advance_currentAddress, advance_readMem]
  rfl

end Sys2Proof.Machine
end

section
/-! ## What the run loop makes of a state and of a step's answer -/

namespace Sys2Proof.Machine

variable {s : State}

theorem State.looping_of_running (hr : s.running = true) (hf : s.fault = none) : s.looping = true := by
  rw [State.looping, hr, hf]
  rfl

/-- The run loop has ended in a state that is not running or is faulted (R245). -/
theorem State.looping_eq_false_iff : s.looping = false ↔ s.running = false ∨ s.fault ≠ none := by
  rw [State.looping, Bool.and_eq_false_iff, Option.isNone_eq_false_iff, Option.isSome_iff_ne_none]

/-- A step with no next state ends the run loop with the step's own answer (R245). -/
theorem runLoop_succ_of_stop (hl : s.looping = true) (h : ∀ t, step s ≠ .next t) (k : Nat) :
    runLoop (k + 1) s = step s := by
  rw [runLoop, if_pos hl]
  cases hs : step s with
  | next t => exact absurd hs (h t)
  | fault r => rfl
  | refused r => rfl

end Sys2Proof.Machine
end

section
/-! ## The step, START and the run loop -/

namespace Sys2Proof.Machine

/-- Settles O23: a turn is a step, and the only step that clears running is a Halt (haltStopsTheRunLoop). -/
theorem loopEndsOnlyByHaltOrFault : Obligations.LoopEndsOnlyByHaltOrFault := by
  refine ⟨fun s t hr hf h => ⟨runLoop_succ (State.looping_of_running hr hf) h, fun hend => ?_⟩,
    fun s k hend => runLoop_of_not_looping (State.looping_eq_false_iff.mpr hend) k⟩
  obtain hstopped | hfault := State.looping_eq_false_iff.mp hend
  · exact .inl (haltStopsTheRunLoop.2 s t hr h hstopped)
  · exact .inr hfault

/-- Settles O24, by induction on the first m turns: a loop that has ended stays where it is, and a step that stops the machine
stops both sides at the same turn. -/
theorem runLoopComposes : Obligations.RunLoopComposes := by
  intro m n
  induction m with
  | zero =>
    intro s
    rw [Nat.zero_add]
    rfl
  | succ m ih =>
    intro s
    rw [Nat.succ_add]
    cases hl : s.looping with
    | false => simp only [runLoop_of_not_looping hl]
    | true =>
      cases h : step s with
      | next t =>
        rw [runLoop_succ hl h, runLoop_succ hl h]
        exact ih t
      | fault r | refused r =>
        have hstop (k : Nat) : runLoop (k + 1) s = step s := runLoop_succ_of_stop hl (by simp [h]) k
        rw [hstop, hstop, h]

/-- Settles O18: advance and takeDecodeFault, written out. -/
theorem stepRunsTheDecodedInstruction : Obligations.StepRunsTheDecodedInstruction :=
  fun s hf => ⟨fun _ => step_of_decode_ok hf,
    fun c hd => (step_of_decode_error hf hd).trans (congrArg _ (s.takeDecodeFault_eq c))⟩

/-- Settles O22: START is the run loop from s.start; a faulted core is O20's. -/
theorem startSetsRunning : Obligations.StartSetsRunning := by
  refine fun s => ⟨fun hf k => ?_, fun hf => ?_⟩
  · rw [hostStart, State.start_of_noFault hf]
  · obtain ⟨r, hr⟩ := Option.ne_none_iff_exists'.mp hf
    exact (faultedCoreTakesNoStep s r hr).2.2

end Sys2Proof.Machine
end

/-! # Proofs of the sample words (spec/95_test_vectors.md) -/

section
/-! ## The decoder's sample words -/

namespace Sys2Proof

/-- Settles O13: each accepted word is written out in its format, its ignored bits as they stand, and each rejected one falls
under R90 or R91. -/
theorem decoderVectors : Obligations.DecoderVectors :=
  ⟨(Format.br 0b111#3 0b111111111#9).decode_eq, (Format.addImm 0 0 0b10000#5).decode_eq, (Format.addReg 0 0 0 0b11#2).decode_eq,
    (Format.jsr 0b10000000000#11).decode_eq, (Format.jsrr 0b00#2 0 0b000000#6).decode_eq, (Format.ldr 7 7 0b111111#6).decode_eq,
    (Format.jmp 0b111#3 7 0b111111#6).decode_eq, (Format.not 0 0 0b000000#6).decode_eq, rfl,
    (Format.trap 0x1#4 0x25#8 _ rfl).decode_eq, (Rejected.trapCode rfl (.inr (by decide))).decode_eq,
    (Rejected.opcode (.inr rfl)).decode_eq⟩

end Sys2Proof
end
